-- ==== Sys2Proof/Word.lean ====
section
/-! DEFINITION. The two value widths of the block: 64-bit words (lanes, seeds, lengths) and 8-bit stream bytes
(00_scope.md rule R13). Every value is unsigned. -/

namespace Sys2Proof

/-- `u64` of rule R13: a lane, a word, a seed or a length. Its sum and product wrap modulo 2^64 (rule R14). -/
abbrev Word := BitVec 64

/-- `u8` of rule R13: one byte of the stream, of the holding buffer or of the digest. -/
abbrev Byte := BitVec 8

end Sys2Proof
end

