-- ==== Sys2Proof/Syntax.lean ====
section
/-! DEFINITION. The commands of the block: the raw transfer, the error codes, the decoder's verdicts and the
instructions, one constructor per row of spec/opcode_table.json. -/

namespace Sys2Proof

/-- One transfer on the command port (30_encoding.md rule R80): 72 bits in two fields. -/
structure Command where
  /-- `CMD[7:0]`: opcode in bits 7:4, byte count in bits 3:0. -/
  cmd : BitVec 8
  /-- `DATA[63:0]`. -/
  data : Word
deriving DecidableEq, Repr

/-- The causes of an error (60_exceptions.md rule R171). Code 0 is the absence of an error and codes 4 to 15 are
never raised, so neither is a constructor. -/
inductive ErrCode where
  /-- `ILLEGAL_OPC`: the opcode is one of 0x4..0xF. -/
  | illegalOpc
  /-- `ILLEGAL_NB`: the byte count is not legal for the opcode. -/
  | illegalNb
  /-- `NO_CONTEXT`: ABSORB or FINALIZE with `ACTIVE = 0`. -/
  | noContext
deriving DecidableEq, Repr

/-- The five verdicts of the decoder (30_encoding.md rule R86). -/
inductive Verdict where
  | nop
  | init
  | absorb (nb : BitVec 4)
  | finalize
  | illegal (code : ErrCode)
deriving DecidableEq, Repr

/-- The instructions: one constructor per row of spec/opcode_table.json (30_encoding.md rule R81). -/
inductive Instr where
  /-- NOP, `CMD = 0x00`; `DATA` is ignored. -/
  | nop
  /-- INIT, `CMD = 0x10`; the seed is `DATA[63:0]`. -/
  | init (seed : Word)
  /-- ABSORB, `CMD = 0x20 | NB` with `NB` in 0..8; `DATA` carries the bytes. -/
  | absorb (nb : BitVec 4) (data : Word)
  /-- FINALIZE, `CMD = 0x30`; `DATA` is ignored. -/
  | finalize
  /-- The reserved space `01xxxxxx` (0x40..0x7F, rule R84); `low` is `CMD[5:0]`. -/
  | reserved40 (low : BitVec 6)
  /-- The reserved space `1xxxxxxx` (0x80..0xFF, rule R84); `low` is `CMD[6:0]`. -/
  | reserved80 (low : BitVec 7)
deriving DecidableEq, Repr

end Sys2Proof
end

