-- ==== Sys2Proof/WellFormed.lean ====
section
/-! DEFINITION. Which instructions have an encoding: the legal byte counts of 30_encoding.md rule R82. -/

namespace Sys2Proof

/-- An instruction is well formed when its byte count is legal: 0 to 8 for ABSORB (rule R82). The other rows carry
no byte count, and every value of their operand bits belongs to them. -/
def Instr.wellFormed : Instr → Bool
  | .nop => true
  | .init _ => true
  | .absorb nb _ => nb.toNat ≤ 8
  | .finalize => true
  | .reserved40 _ => true
  | .reserved80 _ => true

end Sys2Proof
end

