-- ==== Sys2Proof/Decode.lean ====
section
/-! DEFINITION. The decoder and the encoder (30_encoding.md rules R80 to R86), over 72-bit command transfers. -/

namespace Sys2Proof

/-- `OPC = CMD[7:4]` (rule R80). -/
def opcField (cmd : BitVec 8) : BitVec 4 := cmd.extractLsb' 4 4

/-- `NB = CMD[3:0]` (rule R80). -/
def nbField (cmd : BitVec 8) : BitVec 4 := cmd.extractLsb' 0 4

/-- The decoder's verdict on each of the 256 values of `CMD`, its checks in the order of rule R86. -/
def verdict (cmd : BitVec 8) : Verdict :=
  if opcField cmd ≥ 4#4 then .illegal .illegalOpc
  else if opcField cmd = 2#4 ∧ nbField cmd > 8#4 then .illegal .illegalNb
  else if opcField cmd ≠ 2#4 ∧ nbField cmd ≠ 0#4 then .illegal .illegalNb
  else if opcField cmd = 0#4 then .nop
  else if opcField cmd = 1#4 then .init
  else if opcField cmd = 2#4 then .absorb (nbField cmd)
  else .finalize

/-- Why a transfer is no instruction of the table: the error it raises (rules R85, R171) and its `CMD`. -/
inductive DecodeError where
  /-- The transfer has the illegal command byte `cmd` and raises `code`. -/
  | illegal (code : ErrCode) (cmd : BitVec 8)
deriving DecidableEq, Repr

/-- The instruction of a transfer. The reserved opcodes are rows of the table, so they decode to their row
(assumption log 6); an illegal byte count is rejected by name. `DATA` never changes the verdict (rule R86). -/
def decode (c : Command) : Except DecodeError Instr :=
  match verdict c.cmd with
  | .nop => .ok .nop
  | .init => .ok (.init c.data)
  | .absorb nb => .ok (.absorb nb c.data)
  | .finalize => .ok .finalize
  | .illegal .illegalOpc =>
    if c.cmd.getLsbD 7 then .ok (.reserved80 (c.cmd.extractLsb' 0 7))
    else .ok (.reserved40 (c.cmd.extractLsb' 0 6))
  | .illegal code => .error (.illegal code c.cmd)

/-- The transfer of an instruction, from the opcode map of rule R81; an ignored `DATA` is written as 0
(rule R87). -/
def encode : Instr → Command
  | .nop => ⟨0x00#8, 0⟩
  | .init seed => ⟨0x10#8, seed⟩
  | .absorb nb data => ⟨0x2#4 ++ nb, data⟩
  | .finalize => ⟨0x30#8, 0⟩
  | .reserved40 low => ⟨0b01#2 ++ low, 0⟩
  | .reserved80 low => ⟨0b1#1 ++ low, 0⟩

/-- The two fields of a 72-bit transfer read from one number. Rule R80 gives the widths of the fields and rule R191 of
70_reset_and_hazards.md a port for each; no rule gives a joint bit order. DESIGN CHOICE (assumption log 17): `CMD` is
bits 7:0, the bits the opcode table numbers, and `DATA` is bits 71:8. -/
def commandOfBits (bits : BitVec 72) : Command := ⟨bits.extractLsb' 0 8, bits.extractLsb' 8 64⟩

/-- The transfer whose lowest `nbits` bits are those of `w` and whose other bits are 0. A row of the opcode table gives
bits of `CMD` only, so its transfer has `DATA = 0`: DESIGN CHOICE (assumption log 17). -/
def tableCommand (nbits w : Nat) : Command := commandOfBits (BitVec.ofNat 72 (w % 2 ^ nbits))

/-- The instruction the decoder reads from a word of spec/opcode_table.json. -/
def decodeTableWord (nbits w : Nat) : Option Instr :=
  match decode (tableCommand nbits w) with
  | .ok i => some i
  | .error _ => none

end Sys2Proof
end

