-- ==== Sys2Proof/Config.lean ====
section
/-! DEFINITION. What is fixed when the block is built (10_state.md rule R40): the mixing constants and word
rotations, the command latencies and the number of instances. The spec gives no value for any of them, so each is
an opaque constant: no proof can learn more of it than the spec says. -/

namespace Sys2Proof

/-- The build-time parameters of the data path: the mixing constants `KC` (00_scope.md rule R7) and the per-lane
word rotations `WROT` (rule R8). The two proof fields are exactly what rule R7 lets a model assume of `KC`;
`WROT` may be anything. -/
structure Params where
  /-- `KC[0..3]`, that is `K1..K4`. -/
  kc : Fin 4 → Word
  /-- `WROT[0..3]`: how far each word is rotated right before it is mixed into lane `i`. -/
  wrot : Fin 4 → Fin 64
  /-- Every `KC[i]` is odd. -/
  kc_odd : ∀ i, (kc i).getLsbD 0 = true
  /-- The four `KC[i]` are pairwise distinct. -/
  kc_distinct : ∀ i j, kc i = kc j → i = j

/-- The clock latencies of the three commands that may take more than one cycle (00_scope.md rule R11). -/
structure Latencies where
  /-- `LAT_INIT`. -/
  init : Nat
  /-- `LAT_ABSORB`. -/
  absorb : Nat
  /-- `LAT_FINALIZE`. -/
  finalize : Nat
  /-- Each latency is at least 1 (rule R11). -/
  one_le : 1 ≤ init ∧ 1 ≤ absorb ∧ 1 ≤ finalize
deriving DecidableEq, Repr

/-- Some parameters that meet rule R7. They only show that such parameters exist, as the opaque constant below
requires; nothing can be proved from their values. -/
def Params.witness : Params where
  kc i := BitVec.ofNat 64 (2 * i.val + 1)
  wrot _ := 0
  kc_odd := by decide
  kc_distinct := by decide

/-- The parameters a block was built with, given only that some exist. No body: rules R7 and R8, entries I1 and I8
of 93_implementation_defined.md. Assumption log 2. -/
opaque Config.builtParams [Inhabited Params] : Params

/-- `KC` and `WROT` of this block (assumption log 2). -/
def Config.params : Params := @Config.builtParams ⟨Params.witness⟩

/-- `LAT_INIT - 1`, `LAT_ABSORB - 1` and `LAT_FINALIZE - 1` for `k` = 0, 1, 2: open (rule R11, entry I17).
Assumption log 5. -/
opaque Config.extraCycles : Fin 3 → Nat

/-- The latencies of this block, each at least 1 (rule R11). -/
def Config.latencies : Latencies where
  init := Config.extraCycles 0 + 1
  absorb := Config.extraCycles 1 + 1
  finalize := Config.extraCycles 2 + 1
  one_le := ⟨Nat.le_add_left .., Nat.le_add_left .., Nat.le_add_left ..⟩

/-- `N_INST - 1`: open (00_scope.md rule R12). Assumption log 13. -/
opaque Config.extraInstances : Nat

/-- `N_INST`, the number of blocks on the platform, at least 1 (rule R12). -/
def Config.nInst : Nat := Config.extraInstances + 1

end Sys2Proof
end

