-- ==== Sys2Proof/Machine/Constants.lean ====
section
/-! DEFINITION. The numeric constants of 00_scope.md rule R9, and their pairing with the lanes (rule R10). Normative
here; the requester calls the source's literals unaudited (entry I6; assumption log 14). -/

namespace Sys2Proof.Machine

/-- `MIX_ROT1`, the first rotation of the Mixing Primitive. -/
def mixRot1 : Nat := 27

/-- `MIX_ROT2`, the second rotation of the Mixing Primitive. -/
def mixRot2 : Nat := 31

/-- `LEN_ROT[i]`: the rotation of the length for lane `i`. -/
def lenRot : Fin 4 → Nat := ![0, 17, 31, 47]

/-- `AV_ROT[i]`: the rotation of the avalanche round for lane `i`. -/
def avRot : Fin 4 → Nat := ![29, 31, 33, 37]

/-- `AV_ROUNDS`, the number of avalanche rounds. -/
def avRounds : Nat := 4

end Sys2Proof.Machine
end

