-- ==== Sys2Proof/Machine/Operands.lean ====
section
/-! DEFINITION. The operand forms: rotation (00_scope.md rule R14), the bytes of a word and the word of eight bytes in
little-endian order (20_memory.md rules R62 to R64, 40_hash_core.md rule R101). -/

namespace Sys2Proof.Machine

/-- `rotr(a, n)` for `n` in 0..63, as rule R14 writes it. -/
def rotr (a : Word) (n : Nat) : Word := (a >>> n) ||| (a <<< ((64 - n) % 64))

/-- Byte `j` of a word in little-endian order: `w[8j+7 : 8j]` (rules R62, R64). -/
def byteOf (w : Word) (j : Nat) : Byte := w.extractLsb' (8 * j) 8

/-- The `NB` stream bytes of an ABSORB, byte 0 first (rule R62); the bits of `DATA` above them are ignored. -/
def dataBytes (nb : BitVec 4) (data : Word) : List Byte := (List.range nb.toNat).map (byteOf data)

/-- `le_word(b0, ..., b7)` (rule R101): eight bytes as a little-endian word, `b0` earliest in the stream. -/
def leWord (b : Vector Byte 8) : Word :=
  b[0].setWidth 64 ||| b[1].setWidth 64 <<< 8 ||| b[2].setWidth 64 <<< 16 ||| b[3].setWidth 64 <<< 24 |||
  b[4].setWidth 64 <<< 32 ||| b[5].setWidth 64 <<< 40 ||| b[6].setWidth 64 <<< 48 ||| b[7].setWidth 64 <<< 56

end Sys2Proof.Machine
end

