-- ==== Sys2Proof/Machine/State.lean ====
section
/-! DEFINITION. The state record of the block (10_state.md rule R30), the inputs the host gives it, the reasons a
model operation can stop, the named updates of the record and its value after reset (rule R47). -/

namespace Sys2Proof.Machine

/-- The source's Absorption Context (rule R30): the fields that evolve with the stream. -/
structure Context where
  /-- `LANE[0..3]` (rule R31). -/
  lane : Vector Word 4
  /-- `BUF[0..7]`; only the bytes below `BUF_CNT` are valid (rule R32). -/
  buf : Vector Byte 8
  /-- `BUF_CNT`, 0 to 7 (rule R33). -/
  bufCnt : BitVec 3
  /-- `TOTAL_LEN`, bytes since INIT modulo 2^64 (rule R34). -/
  totalLen : Word
deriving DecidableEq, Repr

/-- What the host can do to the block between commands (70_reset_and_hazards.md rule R201): hold `rst_n` low for
an edge, or have a command transferred. Reading `status` and `digest` changes nothing and is no input. -/
inductive HostInput where
  | reset
  | command (c : Command)
deriving DecidableEq, Repr

/-- The block state `S` (rule R30), with the model's own list of the host's inputs still to come. -/
structure State where
  /-- The one live or consumed context. -/
  ctx : Context
  /-- `ACTIVE` (rule R35): a context is live. -/
  active : Bool
  /-- `DIGEST[0..31]` (rule R36). -/
  digest : Vector Byte 32
  /-- `DIGEST_VALID` (rule R37). -/
  digestValid : Bool
  /-- `ERR` (rule R38), sticky. -/
  err : Bool
  /-- `ERR_CODE` (rule R38), 4 bits. -/
  errCode : BitVec 4
  /-- `BUSY` (rule R39); 0 between the steps of the transaction-level model. -/
  busy : Bool
  /-- The MODEL's own field: what the host will present, oldest first (assumption log 3). -/
  pending : List HostInput
deriving DecidableEq, Repr

/-- Why an operation of the model stops with a fault. No command and no step raises one: an error of the command
protocol is a next state with `ERR` set (60_exceptions.md rule R172). -/
inductive Fault where
  /-- Raised by `readDigest` alone, when the host reads `digest` while `BUSY = 1` or `DIGEST_VALID = 0`. Safe: the
  port's value is then unspecified and the read is the host program's fault (rule R37, entry I3 of
  93_implementation_defined.md; assumption log 8). -/
  | digestNotValid
deriving DecidableEq, Repr

/-- Why the model gives no meaning. -/
inductive Refusal where
  /-- An instruction of the table that has no meaning yet, by its mnemonic. No arm of `exec` answers it. Safe. -/
  | notModelled (mnemonic : String)
  /-- Raised by the clocked handshake `tick` alone, when the host drops or changes a command that is held off
  (70_reset_and_hazards.md rules R194, R201; entry I15). Safe: such a run has no meaning (assumption log 9). -/
  | handshakeBroken
deriving DecidableEq, Repr

/-- The context with other lanes. -/
def Context.setLane (k : Context) (lane : Vector Word 4) : Context := { k with lane := lane }

/-- The context with another holding buffer and count. -/
def Context.setBuffer (k : Context) (buf : Vector Byte 8) (cnt : BitVec 3) : Context :=
  { k with buf := buf, bufCnt := cnt }

/-- The context with another running total. -/
def Context.setTotalLen (k : Context) (n : Word) : Context := { k with totalLen := n }

/-- The state with another context. -/
def State.setCtx (s : State) (k : Context) : State := { s with ctx := k }

/-- The state with other life-cycle flags `ACTIVE` and `DIGEST_VALID`. -/
def State.setLife (s : State) (active digestValid : Bool) : State :=
  { s with active := active, digestValid := digestValid }

/-- The state with another digest. -/
def State.setDigest (s : State) (d : Vector Byte 32) : State := { s with digest := d }

/-- The state with other error fields. -/
def State.setErr (s : State) (err : Bool) (code : BitVec 4) : State := { s with err := err, errCode := code }

/-- The state with another `BUSY`. -/
def State.setBusy (s : State) (b : Bool) : State := { s with busy := b }

/-- The state with other inputs to come. -/
def State.setPending (s : State) (p : List HostInput) : State := { s with pending := p }

/-- The block right after reset, every field as rule R47 says; the host has presented nothing yet. `LANE`, `BUF` and
`DIGEST` are unspecified there: DESIGN CHOICE zero, unsafe (assumption log 1). -/
def State.reset : State where
  ctx :=
    { lane := Vector.replicate 4 0, buf := Vector.replicate 8 0, bufCnt := 0, totalLen := 0 }
  active := false
  digest := Vector.replicate 32 0
  digestValid := false
  err := false
  errCode := 0
  busy := false
  pending := []

end Sys2Proof.Machine
end

