-- ==== Sys2Proof/Machine/Flags.lean ====
section
/-! DEFINITION. The flags of the block: the error codes of 60_exceptions.md rule R171, the `STATUS` register of
10_state.md rule R41 and the `cmd_ready` output of rule R39. -/

namespace Sys2Proof.Machine

/-- The value an error leaves in `ERR_CODE` (rule R171). -/
def errCodeBits : ErrCode → BitVec 4
  | .illegalOpc => 1
  | .illegalNb => 2
  | .noContext => 3

/-- `STATUS` (rule R41): bits 15:8 reserved 0, 7:4 `ERR_CODE`, 3 `BUSY`, 2 `ERR`, 1 `DIGEST_VALID`, 0 `ACTIVE`.
These are the bits the port shows in every state, `BUSY = 1` included (70_reset_and_hazards.md rule R198). Rule R201 lets
the host use the value only when `BUSY = 0`, and leaves a model to give any other use no move or no meaning. DESIGN CHOICE
(assumption log 18): the read is not gated on `BUSY`, unlike `readDigest`. -/
def statusWord (s : State) : BitVec 16 :=
  0#8 ++ s.errCode ++ BitVec.ofBool s.busy ++ BitVec.ofBool s.err ++ BitVec.ofBool s.digestValid
    ++ BitVec.ofBool s.active

/-- `cmd_ready = NOT BUSY` (rule R39, 70_reset_and_hazards.md rule R197). -/
def cmdReady (s : State) : Bool := !s.busy

end Sys2Proof.Machine
end

