-- ==== Sys2Proof/Machine/Ops.lean ====
section
/-! DEFINITION. The operations every command shares: raising an error (60_exceptions.md rule R172), discarding a
command while an error stands (rule R173), the context check (rule R174), and reset, the only return from an error
(70_reset_and_hazards.md rule R190). The block has no memory (20_memory.md rule R60), so there is no memory access
here. -/

namespace Sys2Proof.Machine

/-- `raise Err(code)` (rule R172): the first error since reset sets `ERR` and `ERR_CODE`; no other field changes. -/
def raiseErr (code : ErrCode) (s : State) : State :=
  if s.err then s else s.setErr true (errCodeBits code)

/-- A command's effect, or nothing while `ERR = 1`: the block accepts the command and discards it (rule R173). -/
def unlessErr (effect : State → State) (s : State) : State := if s.err then s else effect s

/-- An effect that needs a live context; with `ACTIVE = 0` it raises `NO_CONTEXT` instead (rule R174). -/
def withContext (effect : State → State) (s : State) : State :=
  if s.active then effect s else raiseErr .noContext s

/-- Reset of the block (rule R190): every field of the record takes its value of 10_state.md rule R47. What the host
will still present is not the block's to change (assumption log 11). -/
def resetBlock (s : State) : State := State.reset.setPending s.pending

end Sys2Proof.Machine
end

