-- ==== Sys2Proof/Machine/HashCore.lean ====
section
/-! DEFINITION. hash_core (40_hash_core.md): lane seeding, the Mixing Primitive, the lane update, the byte step of
the holding buffer, and the commands NOP, INIT and ABSORB. The pure functions take the build-time parameters as an
argument (70_reset_and_hazards.md rule R193); the meanings apply them to `Config.params`. -/

namespace Sys2Proof.Machine

/-- `lane_init(seed)` (rule R103): lane `i` is `seed ^ KC[i]`. -/
def laneInit (P : Params) (seed : Word) : Vector Word 4 := Vector.ofFn fun i => seed ^^^ P.kc i

/-- The Mixing Primitive `mix(lane, word, c)` (rule R105). The second product always uses `K1`. -/
def mix (P : Params) (lane word c : Word) : Word :=
  let v1 := lane ^^^ word
  let v2 := v1 * c
  let v3 := v2 ^^^ rotr v2 mixRot1
  let v4 := v3 * P.kc 0
  let v5 := v4 ^^^ rotr v4 mixRot2
  v5

/-- `lane_update(w)` (rule R106): every lane mixes the word, rotated by its own amount, with its own constant
(rule R104). -/
def laneUpdate (P : Params) (w : Word) (lane : Vector Word 4) : Vector Word 4 :=
  Vector.ofFn fun i => mix P lane[i] (rotr w (P.wrot i).val) (P.kc i)

/-- `absorb_byte(b)` (rule R108): one byte into the holding buffer; the eighth completes a word, which is mixed in
the same step, and empties the buffer. -/
def absorbByte (P : Params) (k : Context) (b : Byte) : Context :=
  let buf := k.buf.set k.bufCnt.toNat b
  if k.bufCnt.toNat + 1 = 8 then
    (k.setLane (laneUpdate P (leWord buf) k.lane)).setBuffer buf 0
  else
    k.setBuffer buf (k.bufCnt + 1)

/-- `absorb_byte` on each byte in order (rule R112). -/
def absorbBytes (P : Params) (bytes : List Byte) (k : Context) : Context := bytes.foldl (absorbByte P) k

/-- The context after an ABSORB of `nb` bytes (rule R112): the length first, then each byte. -/
def absorbContext (P : Params) (nb : BitVec 4) (data : Word) (k : Context) : Context :=
  absorbBytes P (dataBytes nb data) (k.setTotalLen (k.totalLen + nb.setWidth 64))

/-- INIT (rule R111) for parameters `P`. `BUF` keeps its stale bytes and `DIGEST` its bytes. -/
def initCommand (P : Params) (seed : Word) : State → State :=
  unlessErr fun s =>
    (s.setCtx (((s.ctx.setLane (laneInit P seed)).setBuffer s.ctx.buf 0).setTotalLen 0)).setLife true false

/-- ABSORB (rule R112) for parameters `P`, its checks in the order of 60_exceptions.md rule R175. A byte count above
8 has no encoding; the block raises `ILLEGAL_NB` for it (rule R85; assumption log 7). -/
def absorbCommand (P : Params) (nb : BitVec 4) (data : Word) : State → State :=
  unlessErr fun s =>
    if nb.toNat ≤ 8 then withContext (fun s => s.setCtx (absorbContext P nb data s.ctx)) s
    else raiseErr .illegalNb s

/-- NOP (rule R110): accepted, and nothing changes, with or without an error or a context. -/
def execNop (s : State) : Host.Outcome State Fault Refusal := .next (unlessErr id s)

/-- INIT (rule R111). -/
def execInit (seed : Word) (s : State) : Host.Outcome State Fault Refusal :=
  .next (initCommand Config.params seed s)

/-- ABSORB (rule R112). -/
def execAbsorb (nb : BitVec 4) (data : Word) (s : State) : Host.Outcome State Fault Refusal :=
  .next (absorbCommand Config.params nb data s)

end Sys2Proof.Machine
end

