-- ==== Sys2Proof/Machine/Finalizer.lean ====
section
/-! DEFINITION. The finalizer (41_finalizer.md): the padded last word, the length fold, the avalanche rounds, the
serializer, and the command FINALIZE. -/

namespace Sys2Proof.Machine

/-- `pad(BUF, n)` (rule R141): the `n` valid bytes, zero bytes above them, as a little-endian word. Stale bytes are
not read. -/
def pad (buf : Vector Byte 8) (n : Nat) : Word :=
  leWord (Vector.ofFn fun j => if j.val < n then buf[j] else 0)

/-- Step 1, the final word (rule R142): mixed like any other word, and only if the buffer holds a byte. -/
def absorbTail (P : Params) (k : Context) : Vector Word 4 :=
  if k.bufCnt = 0 then k.lane else laneUpdate P (pad k.buf k.bufCnt.toNat) k.lane

/-- Step 2, the length fold (rule R143). -/
def foldLength (len : Word) (lane : Vector Word 4) : Vector Word 4 :=
  Vector.ofFn fun i => lane[i] ^^^ rotr len (lenRot i)

/-- One avalanche round (rule R144). Both operands are the lane's value from before the round. -/
def avRound (P : Params) (lane : Vector Word 4) : Vector Word 4 :=
  Vector.ofFn fun i => (lane[i] * P.kc i) ^^^ rotr lane[i] (avRot i)

/-- Step 3 (rule R145): `AV_ROUNDS` rounds in a row. -/
def avalanche (P : Params) (lane : Vector Word 4) : Vector Word 4 := (avRound P)^[avRounds] lane

/-- Step 4, serialization (rule R146): digest byte `8i + j` is byte `j` of lane `i`. -/
def serialize (lane : Vector Word 4) : Vector Byte 32 :=
  Vector.ofFn fun k => byteOf (lane[k.val / 8]'(by omega)) (k.val % 8)

/-- The finalized lanes of a context: steps 1 to 3, once each, in this order (rule R140). -/
def finalLanes (P : Params) (k : Context) : Vector Word 4 :=
  avalanche P (foldLength k.totalLen (absorbTail P k))

/-- FINALIZE (rule R147) for parameters `P`. The lanes stay as serialized and the length as it was (rule R46;
assumption log 10). -/
def finalizeCommand (P : Params) : State → State :=
  unlessErr <| withContext fun s =>
    (((s.setCtx ((s.ctx.setLane (finalLanes P s.ctx)).setBuffer s.ctx.buf 0)).setDigest
      (serialize (finalLanes P s.ctx)))).setLife false true

/-- FINALIZE (rule R147). -/
def execFinalize (s : State) : Host.Outcome State Fault Refusal := .next (finalizeCommand Config.params s)

end Sys2Proof.Machine
end

