-- ==== Sys2Proof/Machine/Illegal.lean ====
section
/-! DEFINITION. The commands that only raise an error: the two reserved rows of the opcode table (30_encoding.md rule
R84) and the transfers the decoder rejects (rule R85). Each is a next state with the error recorded, or unchanged
while an error stands (60_exceptions.md rules R172, R173). -/

namespace Sys2Proof.Machine

/-- The reserved commands 0x40..0x7F raise `ILLEGAL_OPC`, whatever their other bits (rule R84). -/
def execReserved40 (_low : BitVec 6) (s : State) : Host.Outcome State Fault Refusal :=
  .next (raiseErr .illegalOpc s)

/-- The reserved commands 0x80..0xFF raise `ILLEGAL_OPC`, whatever their other bits (rule R84). -/
def execReserved80 (_low : BitVec 7) (s : State) : Host.Outcome State Fault Refusal :=
  .next (raiseErr .illegalOpc s)

/-- A transfer the decoder rejects raises the error the decoder names (rules R85, R196). -/
def rejectCommand : DecodeError → State → Host.Outcome State Fault Refusal
  | .illegal code _, s => .next (raiseErr code s)

end Sys2Proof.Machine
end

