-- ==== Sys2Proof/Machine/Dispatch.lean ====
section
/-! DEFINITION. The meaning of every instruction, one arm per row of the opcode table. -/

namespace Sys2Proof.Machine

/-- The effect of an instruction on the block: the transition of 70_reset_and_hazards.md rule R196. -/
def exec (i : Instr) (s : State) : Host.Outcome State Fault Refusal :=
  match i with
  | .nop => Sys2Proof.Machine.execNop s
  | .init seed => Sys2Proof.Machine.execInit seed s
  | .absorb nb data => Sys2Proof.Machine.execAbsorb nb data s
  | .finalize => Sys2Proof.Machine.execFinalize s
  | .reserved40 low => Sys2Proof.Machine.execReserved40 low s
  | .reserved80 low => Sys2Proof.Machine.execReserved80 low s

end Sys2Proof.Machine
end

