-- ==== Sys2Proof/Machine/Transfer.lean ====
section
/-! DEFINITION. One transferred command, a sequence of them, and the block's next transaction (70_reset_and_hazards.md
rules R194 to R196). -/

namespace Sys2Proof.Machine

/-- `step(S, CMD, DATA)` of rule R196: the transition of one transferred command, legal or not. -/
def runCommand (c : Command) (s : State) : Host.Outcome State Fault Refusal :=
  match decode c with
  | .ok i => exec i s
  | .error e => rejectCommand e s

/-- The left fold of the transition over a sequence of transferred commands (rule R196, 20_memory.md rule R71). -/
def runCommands : List Command → State → Host.Outcome State Fault Refusal
  | [], s => .next s
  | c :: rest, s =>
    match runCommand c s with
    | .next s' => runCommands rest s'
    | .fault f => .fault f
    | .refused r => .refused r

/-- One step of the block: the oldest pending input takes effect and leaves the list. Reset takes effect at any time
(rule R190). A command transfers only when `cmd_ready = 1` (rule R194); until then, and when the host presents
nothing, nothing changes (assumption log 4). -/
def transferNext (s : State) : Host.Outcome State Fault Refusal :=
  match s.pending with
  | [] => .next s
  | .reset :: rest => .next (resetBlock (s.setPending rest))
  | .command c :: rest => if cmdReady s then runCommand c (s.setPending rest) else .next s

/-- The block with command `c` presented first and `cmd_ready` high. -/
def presentFirst (c : Command) (s : State) : State := (s.setPending (.command c :: s.pending)).setBusy false

end Sys2Proof.Machine
end

