-- ==== Sys2Proof/Machine/Step.lean ====
section
/-! DEFINITION. The step of the machine, and where the host of this package places an instruction. -/

namespace Sys2Proof.Machine

/-- One step: the next transaction on the block's ports (70_reset_and_hazards.md rules R6, R196). -/
def step (s : State) : Host.Outcome State Fault Refusal := transferNext s

/-- `s` with the table word `w` presented on the command port as the next transfer (assumption logs 3
and 17). -/
def State.withFetchWord (s : State) (nbits w : Nat) : State := presentFirst (tableCommand nbits w) s

end Sys2Proof.Machine
end

