-- ==== Sys2Proof/Machine/Stream.lean ====
section
/-! DEFINITION. The block seen from the byte stream: the absorbed stream of a context (20_memory.md rule R61), its
words (40_hash_core.md rule R102), and the digest as a function of seed and stream (41_finalizer.md rule R148). The
step does not use these; they are what the spec says the commands add up to. -/

namespace Sys2Proof.Machine

/-- Byte `j` of the span that starts at byte `start` of the stream, or 0 past its end. -/
def spanAt (s : List Byte) (start : Nat) : Vector Byte 8 := Vector.ofFn fun j => s.getD (start + j.val) 0

/-- Stream word `W_k` (rule R102). -/
def streamWord (s : List Byte) (k : Nat) : Word := leWord (spanAt s (8 * k))

/-- All the stream words `W_0, ..., W_{q-1}` with `q = floor(len(s) / 8)` (rule R102). -/
def streamWords (s : List Byte) : List Word := (List.range (s.length / 8)).map (streamWord s)

/-- The lanes after the words of the stream, mixed in order into the seeded lanes: the `A` of rule R148. -/
def streamLanes (P : Params) (seed : Word) (s : List Byte) : Vector Word 4 :=
  (streamWords s).foldl (fun lane w => laneUpdate P w lane) (laneInit P seed)

/-- `tail` of rule R148: the zero-padded partial word is mixed when the length is no multiple of 8. -/
def streamTail (P : Params) (s : List Byte) (lane : Vector Word 4) : Vector Word 4 :=
  if s.length % 8 = 0 then lane
  else laneUpdate P (pad (spanAt s (8 * (s.length / 8))) (s.length % 8)) lane

/-- The finalized lanes of seed and stream (rule R148). -/
def hashLanes (P : Params) (seed : Word) (s : List Byte) : Vector Word 4 :=
  avalanche P (foldLength (BitVec.ofNat 64 s.length) (streamTail P s (streamLanes P seed s)))

/-- `H(seed, s)` (rule R148): the block's fingerprint of a byte stream (00_scope.md rule R2). -/
def hashDigest (P : Params) (seed : Word) (s : List Byte) : Vector Byte 32 := serialize (hashLanes P seed s)

/-- The bytes a transfer carries for the stream: the bytes of an ABSORB (rule R62), none for any other command. Whether
the block accepts them is `acceptInput`'s to say. -/
def commandBytes (c : Command) : List Byte :=
  match verdict c.cmd with
  | .absorb nb => dataBytes nb c.data
  | .nop | .init | .finalize | .illegal _ => []

/-- The bytes a sequence of transfers carries, accepted or not. For ABSORBs that a live block accepts without error they
are what the sequence adds to the stream; for any sequence the stream of rule R61 is `contextInput`'s. -/
def streamOf (cs : List Command) : List Byte := cs.flatMap commandBytes

/-- What a context was given: its seed (rule R111) and its absorbed stream (rule R61). No field of the block: the block
keeps only what it has made of them. -/
structure ContextInput where
  /-- The seed of the context's INIT. -/
  seed : Word
  /-- The bytes of every ABSORB accepted without error since that INIT, in acceptance order. -/
  stream : List Byte
deriving DecidableEq, Repr

/-- What one transfer in state `s` makes of the context's input (rule R61). An accepted INIT starts a new context with
an empty stream; an ABSORB accepted without error adds its bytes; a command that is discarded (60_exceptions.md rule
R173) or raises an error (rule R172), a NOP and a FINALIZE add nothing. -/
def acceptInput (c : Command) (s : State) (i : ContextInput) : ContextInput :=
  if s.err then i
  else
    match verdict c.cmd with
    | .init => ⟨c.data, []⟩
    | .absorb nb => if s.active then { i with stream := i.stream ++ dataBytes nb c.data } else i
    | .nop | .finalize | .illegal _ => i

/-- The input of the latest context after a sequence of transfers from state `s` (rule R61), where `i` is the input of
the context at the start. -/
def contextInput : List Command → State → ContextInput → ContextInput
  | [], _, i => i
  | c :: rest, s, i =>
    match runCommand c s with
    | .next s' => contextInput rest s' (acceptInput c s i)
    | .fault _ => i
    | .refused _ => i

end Sys2Proof.Machine
end

