-- ==== Sys2Proof/Machine/Assembler.lean ====
section
/-! DEFINITION. The assembly language of 30_encoding.md: the lines of rule R87, the pseudo-instructions ABSORBS and
HASH (rules R88, R89), and the text they are written in. Host notation only: no step reads it. What the rules leave
open about the text is DESIGN CHOICE, safe (assumption log 12). -/

namespace Sys2Proof.Machine

/-- One line of assembly with its operands as written (rules R87 to R89). -/
inductive AsmLine where
  | nop
  | init (seed : Nat)
  | absorb (nb data : Nat)
  | finalize
  /-- The pseudo-instruction `ABSORBS <bytes>`. -/
  | absorbs (bytes : List Byte)
  /-- The pseudo-instruction `HASH <seed>, <bytes>`. -/
  | hash (seed : Nat) (bytes : List Byte)
deriving DecidableEq, Repr

/-- The ABSORB of the last `L mod 8` bytes of a stream: none if there are none, except that an empty stream gives one
`ABSORB 0, 0` (rule R88). -/
def absorbsRest (s : List Byte) : List Instr :=
  if s.length % 8 ≠ 0 then
    [.absorb (BitVec.ofNat 4 (s.length % 8)) (pad (spanAt s (8 * (s.length / 8))) (s.length % 8))]
  else if s.length = 0 then [.absorb 0 0] else []

/-- The expansion of `ABSORBS s` (rule R88): one full ABSORB per stream word, then the rest. -/
def absorbsExpansion (s : List Byte) : List Instr := (streamWords s).map (Instr.absorb 8) ++ absorbsRest s

/-- The expansion of `HASH seed, s` (rule R89). -/
def hashExpansion (seed : Word) (s : List Byte) : List Instr := .init seed :: (absorbsExpansion s ++ [.finalize])

/-- The seed operand of a line: `0 <= seed < 2^64` (rule R87). -/
def seedOperand (seed : Nat) : Option Word := if seed < 2 ^ 64 then some (BitVec.ofNat 64 seed) else none

/-- The instructions of one line, or none where the assembler rejects it: a byte count above 8, a nonzero data bit
above `8*nb`, a seed that does not fit (rule R87). -/
def assembleLine : AsmLine → Option (List Instr)
  | .nop => some [.nop]
  | .init seed => (seedOperand seed).map fun w => [.init w]
  | .absorb nb data =>
    if nb ≤ 8 ∧ data < 2 ^ (8 * nb) then some [.absorb (BitVec.ofNat 4 nb) (BitVec.ofNat 64 data)] else none
  | .finalize => some [.finalize]
  | .absorbs bytes => some (absorbsExpansion bytes)
  | .hash seed bytes => (seedOperand seed).map fun w => hashExpansion w bytes

/-- The transfers of a list of lines. -/
def assemble : List AsmLine → Option (List Command)
  | [] => some []
  | l :: rest =>
    match assembleLine l, assemble rest with
    | some is, some cs => some (is.map encode ++ cs)
    | _, _ => none

/-- A token of the text: a word, a quoted string without its quotes, or a comma. -/
inductive AsmToken where
  | word (chars : List Char)
  | quoted (chars : List Char)
  | comma
deriving DecidableEq, Repr

/-- The word read so far, in reverse, as a token before the tokens that follow it. -/
def closeWord (acc : List Char) (rest : List AsmToken) : List AsmToken :=
  if acc.isEmpty then rest else .word acc.reverse :: rest

/-- The tokens of a line: words between blanks, commas and quoted strings; `;` outside a string starts a comment
(rule R87). `acc` is the word or string read so far, in reverse. DESIGN CHOICE (assumption log 12; rule R88 is silent): a
string has no escapes, so the next double quote always ends it, a backslash is the byte 0x5C, and no string holds the
byte 0x22; a string not closed on its line makes the line no command. -/
def tokenize : (inString : Bool) → (acc : List Char) → List Char → Option (List AsmToken)
  | false, acc, [] => some (closeWord acc [])
  | true, _, [] => none
  | true, acc, c :: cs =>
    if c = '"' then (tokenize false [] cs).map fun ts => .quoted acc.reverse :: ts
    else tokenize true (c :: acc) cs
  | false, acc, c :: cs =>
    if c = ';' then some (closeWord acc [])
    else if c = '"' then (tokenize true [] cs).map (closeWord acc)
    else if c = ',' then (tokenize false [] cs).map fun ts => closeWord acc (.comma :: ts)
    else if c = ' ' ∨ c = '\t' ∨ c = '\r' then (tokenize false [] cs).map (closeWord acc)
    else tokenize false (c :: acc) cs

/-- The value of a digit in the given base, at most 16; letters in either case. -/
def digitValue (base : Nat) (c : Char) : Option Nat :=
  let n := c.toNat
  let v := if 48 ≤ n ∧ n ≤ 57 then n - 48 else if 97 ≤ n ∧ n ≤ 102 then n - 87
    else if 65 ≤ n ∧ n ≤ 70 then n - 55 else 99
  if v < base then some v else none

/-- Digits in the given base, most significant first, continued from `acc`. -/
def digits (base acc : Nat) : List Char → Option Nat
  | [] => some acc
  | c :: cs =>
    match digitValue base c with
    | some v => digits base (base * acc + v) cs
    | none => none

/-- A numeric operand: decimal, or hexadecimal after `0x` (rule R87). -/
def number : List Char → Option Nat
  | [] => none
  | '0' :: 'x' :: c :: cs => digits 16 0 (c :: cs)
  | c :: cs => digits 10 0 (c :: cs)

/-- A byte of a quoted ASCII string (rule R88, 00_scope.md rule R16). -/
def asciiByte (c : Char) : Option Byte := if c.toNat < 128 then some (BitVec.ofNat 8 c.toNat) else none

/-- A byte written as two hexadecimal digits (rule R16). -/
def hexByte : AsmToken → Option Byte
  | .word [hi, lo] => (digits 16 0 [hi, lo]).map (BitVec.ofNat 8)
  | _ => none

/-- `<bytes>` of rule R88: one quoted ASCII string, or a list of hexadecimal bytes. -/
def bytesOperand : List AsmToken → Option (List Byte)
  | [.quoted cs] => cs.mapM asciiByte
  | ts => ts.mapM hexByte

/-- A line from its tokens; the inner none is a blank line. -/
def parseTokens : List AsmToken → Option (Option AsmLine)
  | [] => some none
  | [.word ['N', 'O', 'P']] => some (some .nop)
  | [.word ['F', 'I', 'N', 'A', 'L', 'I', 'Z', 'E']] => some (some .finalize)
  | [.word ['I', 'N', 'I', 'T'], .word n] => (number n).map fun v => some (.init v)
  | [.word ['A', 'B', 'S', 'O', 'R', 'B'], .word n, .comma, .word d] =>
    match number n, number d with
    | some nb, some data => some (some (.absorb nb data))
    | _, _ => none
  | .word ['A', 'B', 'S', 'O', 'R', 'B', 'S'] :: ts => (bytesOperand ts).map fun b => some (.absorbs b)
  | .word ['H', 'A', 'S', 'H'] :: .word n :: .comma :: ts =>
    match number n, bytesOperand ts with
    | some seed, some b => some (some (.hash seed b))
    | _, _ => none
  | _ => none

/-- One line of text (rule R87: one command per line). -/
def parseLine (line : List Char) : Option (Option AsmLine) :=
  match tokenize false [] line with
  | some ts => parseTokens ts
  | none => none

/-- The lines of a text, `acc` the current one in reverse. -/
def textLines (acc : List Char) : List Char → List (List Char)
  | [] => [acc.reverse]
  | c :: cs => if c = '\n' then acc.reverse :: textLines [] cs else textLines (c :: acc) cs

/-- The commands written on a list of text lines, blank lines left out. -/
def parseLines : List (List Char) → Option (List AsmLine)
  | [] => some []
  | l :: rest =>
    match parseLine l, parseLines rest with
    | some (some a), some as => some (a :: as)
    | some none, some as => some as
    | _, _ => none

/-- The transfers of an assembly text. -/
def assembleText (text : List Char) : Option (List Command) :=
  match parseLines (textLines [] text) with
  | some ls => assemble ls
  | none => none

end Sys2Proof.Machine
end

