-- ==== Sys2Proof/Machine/Platform.lean ====
section
/-! DEFINITION. A platform of several blocks (00_scope.md rule R12, 60_exceptions.md rule R183): each instance has its
own record, they share only the build-time parameters, and the platform says which one a command goes to. -/

namespace Sys2Proof.Machine

/-- The records of `n` instances. -/
abbrev Platform (n : Nat) := Vector State n

/-- A command to instance `k` (rule R183). -/
def platformCommand {n : Nat} (k : Fin n) (c : Command) (p : Platform n) : Host.Outcome (Platform n) Fault Refusal :=
  match runCommand c p[k] with
  | .next s => .next (p.set k s)
  | .fault f => .fault f
  | .refused r => .refused r

/-- The platform of this build, `N_INST` instances, each after reset (rules R12, R47). -/
def platformReset : Platform Config.nInst := Vector.replicate Config.nInst State.reset

end Sys2Proof.Machine
end

