-- ==== Sys2Proof/Machine/Ports.lean ====
section
/-! DEFINITION. The output ports (70_reset_and_hazards.md rule R191): the 256-bit digest port and the host's read of
it. `status` is `statusWord` and `cmd_ready` is `cmdReady` of Flags; the host's read of `status` is not gated on `BUSY`
(assumption log 18). -/

namespace Sys2Proof.Machine

/-- The digest port (20_memory.md rule R66): `digest[8k+7 : 8k]` carries `DIGEST[k]`. -/
def digestBits (d : Vector Byte 32) : BitVec 256 :=
  (List.finRange 32).foldl (fun (acc : BitVec 256) k => acc ||| (d[k].setWidth 256 : BitVec 256) <<< (8 * k.val)) 0

/-- The host's read of `digest`. It has a value only with `BUSY = 0` and `DIGEST_VALID = 1` (10_state.md rule R37,
rule R198); any other read is a fault of the host program (entry I3; assumption log 8). It changes no state. -/
def readDigest (s : State) : Except Fault (BitVec 256) :=
  if s.busy = false ∧ s.digestValid = true then .ok (digestBits s.digest) else .error .digestNotValid

end Sys2Proof.Machine
end

