-- ==== Sys2Proof/Machine/Clock.lean ====
section
/-! DEFINITION. The block at its pins, one clock edge at a time: reset, the valid/ready handshake, `BUSY` and the
latencies (70_reset_and_hazards.md rules R190 to R198). `step` is the transaction-level machine; `tick` spends on each
transfer the cycles the block's latencies say and then applies the same transition. -/

namespace Sys2Proof.Machine

/-- The input pins at a rising edge of `clk` (rule R191). -/
structure Pins where
  /-- `rst_n`, active low. -/
  rstN : Bool
  /-- `cmd_valid`. -/
  cmdValid : Bool
  /-- `cmd` and `cmd_data`. -/
  command : Command
deriving DecidableEq, Repr

/-- A command the block has accepted and not yet completed. -/
structure InFlight where
  /-- The command sampled at its transfer edge (rule R194). -/
  command : Command
  /-- How many edges remain until its completion edge. -/
  remaining : Nat
deriving DecidableEq, Repr

/-- The block between two edges. -/
structure ClockState where
  /-- The record that `status`, `digest` and `cmd_ready` show (rule R198). -/
  block : State
  /-- The command in progress; some exactly while `BUSY = 1`. -/
  inFlight : Option InFlight
  /-- The command presented at the last edge and not taken (rule R194). -/
  heldOff : Option Command
deriving DecidableEq, Repr

/-- The latency of a command's kind (rule R197): NOP and illegal commands take one cycle. -/
def latencyOf (T : Latencies) (c : Command) : Nat :=
  match verdict c.cmd with
  | .init => T.init
  | .absorb _ => T.absorb
  | .finalize => T.finalize
  | .nop | .illegal _ => 1

/-- The command on the pins, if one is presented. -/
def presented (p : Pins) : Option Command := if p.cmdValid then some p.command else none

/-- The host keeps its duty of rule R194: a command that was held off is still presented, unchanged. -/
def keepsHandshake (heldOff : Option Command) (p : Pins) : Bool :=
  match heldOff with
  | none => true
  | some c => presented p = some c

/-- The completion edge (rules R196, R198): the transition takes effect at once and `BUSY` falls. -/
def complete (c : Command) (block : State) (heldOff : Option Command) :
    Host.Outcome ClockState Fault Refusal :=
  match runCommand c (block.setBusy false) with
  | .next b => .next ⟨b, none, heldOff⟩
  | .fault f => .fault f
  | .refused r => .refused r

/-- A rising edge with `BUSY = 0` and `rst_n = 1`: a presented command transfers (rule R194). With latency 1 it
completes at this edge and `BUSY` stays 0; else `BUSY` rises (rule R197). -/
def tickIdle (T : Latencies) (p : Pins) (block : State) : Host.Outcome ClockState Fault Refusal :=
  match presented p with
  | none => .next ⟨block, none, none⟩
  | some c =>
    if latencyOf T c ≤ 1 then complete c block none
    else .next ⟨block.setBusy true, some ⟨c, latencyOf T c - 1⟩, none⟩

/-- A rising edge with `BUSY = 1` and `rst_n = 1`: the command in progress completes or waits; a presented command is
held off (rules R194, R197). -/
def tickBusy (f : InFlight) (p : Pins) (block : State) : Host.Outcome ClockState Fault Refusal :=
  if f.remaining ≤ 1 then complete f.command block (presented p)
  else .next ⟨block, some { f with remaining := f.remaining - 1 }, presented p⟩

/-- One rising edge of `clk`. Reset comes first: it abandons a command in progress and takes no command (rule R190). A
host that drops or changes a held-off command gets no meaning (rule R201; assumption log 9). -/
def tick (T : Latencies) (p : Pins) (k : ClockState) : Host.Outcome ClockState Fault Refusal :=
  if p.rstN = false then .next ⟨resetBlock k.block, none, none⟩
  else if keepsHandshake k.heldOff p = false then .refused .handshakeBroken
  else
    match k.inFlight with
    | none => tickIdle T p k.block
    | some f => tickBusy f p k.block

/-- A sequence of rising edges. -/
def ticks (T : Latencies) : List Pins → ClockState → Host.Outcome ClockState Fault Refusal
  | [], k => .next k
  | p :: rest, k =>
    match tick T p k with
    | .next k' => ticks T rest k'
    | .fault f => .fault f
    | .refused r => .refused r

/-- One rising edge of this block, with the latencies it was built with (00_scope.md rule R11). -/
def clockEdge (p : Pins) (k : ClockState) : Host.Outcome ClockState Fault Refusal := tick Config.latencies p k

/-- The block at its pins after a reset edge (rule R190). -/
def ClockState.reset : ClockState := ⟨State.reset, none, none⟩

end Sys2Proof.Machine
end

