-- ==== Sys2Proof/Safety.lean ====
section
/-! DEFINITION. What counts as a safe run: the invariants of 10_state.md rule R48 at every command boundary, an
outcome that is a next state, and which states a host cannot tell apart (rules R45 to R47). -/

namespace Sys2Proof.Machine

/-- The step went on: neither a fault nor a refusal. -/
def Completes (o : Host.Outcome State Fault Refusal) : Prop := ∃ s, o = .next s

/-- The invariants of rule R48, (a) to (e). -/
structure BlockInv (s : State) : Prop where
  /-- (a) `0 <= BUF_CNT <= 7`. -/
  bufCnt_le : s.ctx.bufCnt.toNat ≤ 7
  /-- (b) `ERR = 0` implies `ERR_CODE = 0`. -/
  no_err : s.err = false → s.errCode = 0
  /-- (b) `ERR = 1` implies `ERR_CODE` is in 1..3. -/
  err_code : s.err = true → 1 ≤ s.errCode.toNat ∧ s.errCode.toNat ≤ 3
  /-- (c) a live context has no valid digest. -/
  active_no_digest : s.active = true → s.digestValid = false
  /-- (d) `BUSY = 0`. -/
  not_busy : s.busy = false
  /-- (e) while a context is live, `TOTAL_LEN mod 8 = BUF_CNT`. -/
  len_mod : s.active = true → s.ctx.totalLen.toNat % 8 = s.ctx.bufCnt.toNat

/-- The invariant of the clocked block: `BUSY` says whether a command is in progress (rule R39), and one in progress
has an edge to go (70_reset_and_hazards.md rule R197). -/
structure ClockInv (k : ClockState) : Prop where
  busy_iff : k.block.busy = k.inFlight.isSome
  remaining_pos : ∀ f, k.inFlight = some f → 1 ≤ f.remaining

/-- The valid bytes of the holding buffer, `BUF[0 .. BUF_CNT-1]` (rule R32). -/
def validBytes (k : Context) : List Byte := k.buf.toList.take k.bufCnt.toNat

/-- The command byte names an assigned opcode with a byte count that is not legal for it (30_encoding.md rule R85). -/
def illegalByteCount (cmd : BitVec 8) : Bool :=
  (cmd.toNat / 16 = 2 ∧ 8 < cmd.toNat % 16) ∨
    (cmd.toNat / 16 < 4 ∧ cmd.toNat / 16 ≠ 2 ∧ cmd.toNat % 16 ≠ 0)

/-- The command is an ABSORB with a legal byte count (rule R82). -/
def isAbsorb (c : Command) : Bool := c.cmd.toNat / 16 = 2 ∧ c.cmd.toNat % 16 ≤ 8

/-- The error a command raises when none stands, by the priority of 60_exceptions.md rule R175, as the value of
`ERR_CODE` (rule R171). -/
def errorOf (active : Bool) (cmd : BitVec 8) : Option (BitVec 4) :=
  if 4 ≤ cmd.toNat / 16 then some 1
  else if illegalByteCount cmd then some 2
  else if (cmd.toNat / 16 = 2 ∨ cmd.toNat / 16 = 3) ∧ active = false then some 3
  else none

/-- Two contexts the finalizer cannot tell apart: all fields equal but the stale bytes of the buffer (rules R32,
R45). -/
structure SameContext (a b : Context) : Prop where
  lane : a.lane = b.lane
  bufCnt : a.bufCnt = b.bufCnt
  totalLen : a.totalLen = b.totalLen
  valid_bytes : ∀ j : Fin 8, j.val < a.bufCnt.toNat → a.buf[j] = b.buf[j]

/-- Two states that differ only where no rule reads: the context while none is live (rule R46), stale buffer bytes
(rule R32), and a digest that is not valid (rule R37). -/
structure SameView (s t : State) : Prop where
  active : s.active = t.active
  digestValid : s.digestValid = t.digestValid
  err : s.err = t.err
  errCode : s.errCode = t.errCode
  busy : s.busy = t.busy
  pending : s.pending = t.pending
  ctx : s.active = true → SameContext s.ctx t.ctx
  digest : s.digestValid = true → s.digest = t.digest

end Sys2Proof.Machine
end

