-- ==== Sys2Proof/Certificates/Slice0/Obligations.lean ====
section
/-! DEFINITION. The statements about the block, from the numbered rules of spec/. `Config.params` is the block's own
`KC` and `WROT`, of which nothing is known but 00_scope.md rule R7; a statement over every `P : Params` holds for every
block. -/

open Sys2Proof Sys2Proof.Machine

/-! ### Encoding -/

/-- Decoding the encoding of a well-formed instruction gives it back, every operand at every value (30_encoding.md
rules R80 to R86). -/
def Obligations.DecodeEncodeAgree : Prop :=
  ∀ i : Instr, i.wellFormed = true → decode (encode i) = .ok i

/-- A transfer that decodes carries exactly the `CMD` of its instruction's encoding, the instruction is well formed,
and running the re-encoded transfer does the same from every state. -/
def Obligations.EncodeInvertsDecode : Prop :=
  ∀ (c : Command) (i : Instr), decode c = .ok i →
    i.wellFormed = true ∧ (encode i).cmd = c.cmd ∧ ∀ s, runCommand (encode i) s = runCommand c s

/-- Rule R86: the verdict on every `CMD`, with the checks in the rule's order, and the rule's count of each verdict
over the 256 values. -/
def Obligations.VerdictCensus : Prop :=
  (∀ cmd : BitVec 8, verdict cmd =
    (if 4 ≤ cmd.toNat / 16 then .illegal .illegalOpc
     else if cmd.toNat / 16 = 2 ∧ 8 < cmd.toNat % 16 then .illegal .illegalNb
     else if cmd.toNat / 16 ≠ 2 ∧ cmd.toNat % 16 ≠ 0 then .illegal .illegalNb
     else if cmd.toNat / 16 = 0 then .nop
     else if cmd.toNat / 16 = 1 then .init
     else if cmd.toNat / 16 = 2 then .absorb (BitVec.ofNat 4 (cmd.toNat % 16))
     else .finalize)) ∧
  (let all := (List.range 256).map fun n => verdict (BitVec.ofNat 8 n)
   all.count .nop = 1 ∧ all.count .init = 1 ∧
     (all.filter fun v => match v with | .absorb _ => true | _ => false).length = 9 ∧
     all.count .finalize = 1 ∧ all.count (.illegal .illegalOpc) = 192 ∧ all.count (.illegal .illegalNb) = 52)

/-- Words written out from the encoding examples of rule R90 decode to the instructions they stand for, and the two
illegal ones to a reserved row and to a rejection by name (that form of the two is the model's, assumption log 6). -/
def Obligations.EncodingExamplesDecode : Prop :=
  decode ⟨0x10, 0⟩ = .ok (.init 0) ∧
  decode ⟨0x10, 0xFFFFFFFFFFFFFFFF⟩ = .ok (.init 0xFFFFFFFFFFFFFFFF) ∧
  decode ⟨0x23, 0x0000000000636261⟩ = .ok (.absorb 3 0x636261) ∧
  decode ⟨0x28, 0x6867666564636261⟩ = .ok (.absorb 8 0x6867666564636261) ∧
  decode ⟨0x20, 0⟩ = .ok (.absorb 0 0) ∧
  decode ⟨0x30, 0⟩ = .ok .finalize ∧
  decode ⟨0x00, 0⟩ = .ok .nop ∧
  decode ⟨0x29, 0⟩ = .error (.illegal .illegalNb 0x29) ∧
  decode ⟨0x40, 0⟩ = .ok (.reserved40 0)

/-- The `DATA` bits a command does not use have no effect (rule R83): all of them except under INIT, and above `8*NB`
under ABSORB. -/
def Obligations.IgnoredDataBitsHaveNoEffect : Prop :=
  ∀ (cmd : BitVec 8) (d₁ d₂ : Word) (s : State), verdict cmd ≠ .init →
    (∀ nb, verdict cmd = .absorb nb → ∀ b < 8 * nb.toNat, d₁.getLsbD b = d₂.getLsbD b) →
    runCommand ⟨cmd, d₁⟩ s = runCommand ⟨cmd, d₂⟩ s

/-! ### Operands: bytes, words, rotations -/

/-- Rule R62: the bytes of an ABSORB are the low `NB` bytes of `DATA`; a live block absorbs them one at a time, byte 0
first; the bits above them have no effect on what the command does; and eight of them are the little-endian reading of
`DATA`. -/
def Obligations.AbsorbTakesLowBytesInOrder : Prop :=
  ∀ (nb : BitVec 4) (data : Word), nb.toNat ≤ 8 →
    (dataBytes nb data).length = nb.toNat ∧
    (∀ j < nb.toNat, (dataBytes nb data)[j]? = some (data.extractLsb' (8 * j) 8)) ∧
    (∀ (data' : Word) (s : State), (∀ b < 8 * nb.toNat, data'.getLsbD b = data.getLsbD b) →
      exec (.absorb nb data') s = exec (.absorb nb data) s) ∧
    (∀ s : State, s.err = false → s.active = true → ∃ t, exec (.absorb nb data) s = .next t ∧
      t.ctx = ((List.range nb.toNat).map fun j => data.extractLsb' (8 * j) 8).foldl (absorbByte Config.params)
        (s.ctx.setTotalLen t.ctx.totalLen)) ∧
    (nb = 8 → leWord (Vector.ofFn fun j => (dataBytes nb data).getD j.val 0) = data)

/-- Words are little-endian (40_hash_core.md rule R101): byte `j` of the word is the `j`-th byte of the span, so the
word is fixed by the rule; the word of a word's own bytes is the word; and the rule's example. -/
def Obligations.LittleEndianWordRoundTrip : Prop :=
  (∀ (b : Vector Byte 8) (j : Fin 8), (leWord b).extractLsb' (8 * j.val) 8 = b[j]) ∧
  (∀ w : Word, leWord (Vector.ofFn fun j => w.extractLsb' (8 * j.val) 8) = w) ∧
  leWord #v[0x61, 0x62, 0x63, 0x64, 0x65, 0x66, 0x67, 0x68] = 0x6867666564636261

/-- `rotr` moves bit `i + n` to bit `i` around the word (00_scope.md rule R14), and a rotation left by `r` is the
rotation right by `(64 - r) mod 64` (rule R8). -/
def Obligations.RotrMovesBitsAround : Prop :=
  (∀ (a : Word) (n i : Nat), n < 64 → i < 64 → (rotr a n).getLsbD i = a.getLsbD ((i + n) % 64)) ∧
  (∀ (a : Word) (r : Nat), r < 64 → a.rotateLeft r = rotr a ((64 - r) % 64))

/-- Rule R141: the padded word is the sum of the valid bytes at their places, equal to the little-endian word of the
valid bytes followed by zero bytes, and no stale byte enters. -/
def Obligations.PadSumsTheValidBytes : Prop :=
  ∀ (buf : Vector Byte 8) (n : Nat), 1 ≤ n → n ≤ 7 →
    pad buf n = ∑ j : Fin 8, (if j.val < n then (buf[j].setWidth 64 : Word) <<< (8 * j.val) else 0) ∧
    pad buf n = leWord (Vector.ofFn fun j => (buf.toList.take n).getD j.val 0) ∧
    ∀ buf' : Vector Byte 8, (∀ j : Fin 8, j.val < n → buf'[j] = buf[j]) → pad buf' n = pad buf n

/-! ### The Mixing Primitive -/

/-- Rule R107 (a) and (b): a lane mixed with its own value gives 0, and the mix is not injective in the lane: for the
constant of any lane there is another lane value that a zero word sends to 0. -/
def Obligations.MixIsNotInjective : Prop :=
  ∀ P : Params, (∀ x c : Word, mix P x x c = 0) ∧
    ∀ i : Fin 4, ∃ x : Word, x ≠ 0 ∧ x * P.kc i = 0xFFFFFFFFFFFFFFFF ∧
      mix P x 0 (P.kc i) = 0 ∧ mix P 0 0 (P.kc i) = 0

/-- Rule R107 (b): each rotation stage of the mix sends exactly two words to 0. -/
def Obligations.RotationStageKernel : Prop :=
  ∀ x : Word, (x ^^^ rotr x 27 = 0 ↔ x = 0 ∨ x = 0xFFFFFFFFFFFFFFFF) ∧
    (x ^^^ rotr x 31 = 0 ↔ x = 0 ∨ x = 0xFFFFFFFFFFFFFFFF)

/-- Rule R107 (c): the result of a mix has an even number of 1 bits. -/
def Obligations.MixHasEvenParity : Prop :=
  ∀ (P : Params) (lane word c : Word),
    Even ((List.range 64).countP fun b => (mix P lane word c).getLsbD b)

/-- Rule R106: the lane update gives every lane the mix of its own old value, the word rotated right by its own
amount, and its own constant. -/
def Obligations.LaneUpdateMixesEveryLane : Prop :=
  ∀ (P : Params) (w : Word) (lane : Vector Word 4) (i : Fin 4),
    (laneUpdate P w lane)[i] =
      (let v2 := (lane[i] ^^^ rotr w (P.wrot i).val) * P.kc i
       let v4 := (v2 ^^^ rotr v2 27) * P.kc 0
       v4 ^^^ rotr v4 31)

/-- The words of a stream are mixed in stream order because the order matters (rule R122): for some parameters, lanes
and words the two orders differ. -/
def Obligations.WordOrderMatters : Prop :=
  ∃ (P : Params) (lane : Vector Word 4) (w₁ w₂ : Word),
    laneUpdate P w₂ (laneUpdate P w₁ lane) ≠ laneUpdate P w₁ (laneUpdate P w₂ lane)

/-! ### The commands -/

/-- Rule R110, NOP: it completes from every state with nothing changed, `CMD = 0x00` is NOP whatever `DATA` holds, and
`CMD` in 0x01..0x0F raises `ILLEGAL_NB`. -/
def Obligations.NopChangesNothing : Prop :=
  ∀ (s : State) (data : Word),
    exec .nop s = .next s ∧ runCommand ⟨0x00, data⟩ s = .next s ∧
    ∀ cmd : BitVec 8, 0x01 ≤ cmd.toNat → cmd.toNat ≤ 0x0F → s.err = false →
      runCommand ⟨cmd, data⟩ s = .next { s with err := true, errCode := 2 }

/-- Rule R111, INIT: it completes with or without a live context; the lanes are the seed with each constant, the count
and the length are 0, `ACTIVE` is 1 and `DIGEST_VALID` is 0, and nothing else changes, the stale buffer and the digest
bytes included. While an error stands it is discarded; `CMD` in 0x11..0x1F raises `ILLEGAL_NB`. -/
def Obligations.InitStartsContext : Prop :=
  ∀ (seed : Word) (s : State),
    (s.err = true → exec (.init seed) s = .next s) ∧
    (s.err = false → ∃ t, exec (.init seed) s = .next t ∧ runCommand ⟨0x10, seed⟩ s = .next t ∧
      (∀ i : Fin 4, t.ctx.lane[i] = seed ^^^ Config.params.kc i) ∧
      t.ctx.bufCnt = 0 ∧ t.ctx.totalLen = 0 ∧ t.active = true ∧ t.digestValid = false ∧
      t.ctx.buf = s.ctx.buf ∧ t.digest = s.digest ∧ t.err = false ∧ t.errCode = s.errCode ∧
      t.busy = s.busy ∧ t.pending = s.pending ∧
      (s.errCode = 0 → s.busy = false → statusWord t = 0x0001)) ∧
    (s.err = false → ∀ cmd : BitVec 8, 0x11 ≤ cmd.toNat → cmd.toNat ≤ 0x1F →
      runCommand ⟨cmd, seed⟩ s = .next { s with err := true, errCode := 2 })

/-- Rule R112, ABSORB, in closed form: the valid bytes of the buffer followed by the command's bytes either all fit
in the buffer, or the first eight are one little-endian word that goes into the lanes and the rest stay in the buffer.
The length grows by `NB`; nothing else changes. It is discarded while an error stands, raises `NO_CONTEXT` without a
live context, and `CMD` in 0x29..0x2F raises `ILLEGAL_NB`. -/
def Obligations.AbsorbMixesAtMostOneWord : Prop :=
  ∀ (nb : BitVec 4) (data : Word) (s : State), nb.toNat ≤ 8 →
    (s.err = true → exec (.absorb nb data) s = .next s) ∧
    (s.err = false → s.active = false →
      exec (.absorb nb data) s = .next { s with err := true, errCode := 3 }) ∧
    (s.err = false → s.active = true → ∃ t, exec (.absorb nb data) s = .next t ∧
      runCommand ⟨0x2#4 ++ nb, data⟩ s = .next t ∧
      (let bytes := validBytes s.ctx ++ dataBytes nb data
       (bytes.length < 8 → t.ctx.lane = s.ctx.lane ∧ validBytes t.ctx = bytes) ∧
       (8 ≤ bytes.length →
         t.ctx.lane = laneUpdate Config.params (leWord (spanAt bytes 0)) s.ctx.lane ∧
         validBytes t.ctx = bytes.drop 8)) ∧
      t.ctx.totalLen = s.ctx.totalLen + BitVec.ofNat 64 nb.toNat ∧
      t.active = true ∧ t.digestValid = s.digestValid ∧ t.digest = s.digest ∧ t.err = false ∧
      t.errCode = s.errCode ∧ t.busy = s.busy ∧ t.pending = s.pending) ∧
    (nb = 0 → s.active = true → exec (.absorb nb data) s = .next s) ∧
    (s.err = false → ∀ cmd : BitVec 8, 0x29 ≤ cmd.toNat → cmd.toNat ≤ 0x2F →
      runCommand ⟨cmd, data⟩ s = .next { s with err := true, errCode := 2 })

/-- A full ABSORB into an empty buffer mixes `DATA` itself (a corner case of rule R112). -/
def Obligations.FullAbsorbMixesDataItself : Prop :=
  ∀ (data : Word) (s : State), s.err = false → s.active = true → s.ctx.bufCnt = 0 →
    ∃ t, exec (.absorb 8 data) s = .next t ∧ t.ctx.lane = laneUpdate Config.params data s.ctx.lane ∧
      t.ctx.bufCnt = 0 ∧ t.ctx.totalLen = s.ctx.totalLen + 8

/-- An ABSORB as syntax whose byte count is above 8 has no encoding; the model's meaning of it raises `ILLEGAL_NB`, live
context or not. The model's choice, assumption log 7. -/
def Obligations.IllFormedAbsorbRaises : Prop :=
  ∀ (nb : BitVec 4) (data : Word) (s : State), 8 < nb.toNat → s.err = false →
    exec (.absorb nb data) s = .next { s with err := true, errCode := 2 }

/-- Rule R147, FINALIZE, lane by lane: the padded partial word if there is one, the length fold, four avalanche
rounds, the digest bytes; the context is consumed and everything else stays. It is discarded while an error stands,
raises `NO_CONTEXT` without a live context, and `CMD` in 0x31..0x3F raises `ILLEGAL_NB`. -/
def Obligations.FinalizeProducesDigest : Prop :=
  ∀ (s : State) (data : Word),
    (s.err = true → exec .finalize s = .next s) ∧
    (s.err = false → s.active = false → exec .finalize s = .next { s with err := true, errCode := 3 }) ∧
    (s.err = false → s.active = true → ∃ t, exec .finalize s = .next t ∧
      runCommand ⟨0x30, data⟩ s = .next t ∧
      (∀ i : Fin 4,
        (let word := pad s.ctx.buf s.ctx.bufCnt.toNat
         let mixed := if s.ctx.bufCnt = 0 then s.ctx.lane[i]
           else mix Config.params s.ctx.lane[i] (rotr word (Config.params.wrot i).val) (Config.params.kc i)
         let folded := mixed ^^^ rotr s.ctx.totalLen ((![0, 17, 31, 47] : Fin 4 → Nat) i)
         t.ctx.lane[i] =
           (fun x => (x * Config.params.kc i) ^^^ rotr x ((![29, 31, 33, 37] : Fin 4 → Nat) i))^[4] folded)) ∧
      (∀ k : Fin 32, t.digest[k] = (t.ctx.lane[k.val / 8]'(by omega)).extractLsb' (8 * (k.val % 8)) 8) ∧
      t.ctx.bufCnt = 0 ∧ t.active = false ∧ t.digestValid = true ∧ t.ctx.buf = s.ctx.buf ∧
      t.ctx.totalLen = s.ctx.totalLen ∧ t.err = false ∧ t.errCode = s.errCode ∧ t.busy = s.busy ∧
      t.pending = s.pending) ∧
    (s.err = false → ∀ cmd : BitVec 8, 0x31 ≤ cmd.toNat → cmd.toNat ≤ 0x3F →
      runCommand ⟨cmd, data⟩ s = .next { s with err := true, errCode := 2 })

/-- Rule R84: a reserved opcode raises `ILLEGAL_OPC` whatever its other bits and `DATA`, and the reserved rows'
meanings complete with exactly that. -/
def Obligations.ReservedOpcodesRaise : Prop :=
  ∀ s : State, s.err = false →
    (∀ low : BitVec 6, exec (.reserved40 low) s = .next { s with err := true, errCode := 1 }) ∧
    (∀ low : BitVec 7, exec (.reserved80 low) s = .next { s with err := true, errCode := 1 }) ∧
    (∀ c : Command, 4 ≤ c.cmd.toNat / 16 → runCommand c s = .next { s with err := true, errCode := 1 })

/-! ### Errors -/

/-- Rules R172, R174 and R175: what a command does about errors, for every command and state. A standing error discards
it; else the first cause in the order of rule R175 sets `ERR` and `ERR_CODE` and nothing else; else the command leaves
no error. -/
def Obligations.ErrorPriority : Prop :=
  ∀ (c : Command) (s : State),
    (s.err = true → runCommand c s = .next s) ∧
    (s.err = false → ∀ code, errorOf s.active c.cmd = some code →
      runCommand c s = .next { s with err := true, errCode := code }) ∧
    (s.err = false → errorOf s.active c.cmd = none →
      ∃ t, runCommand c s = .next t ∧ t.err = false ∧ t.errCode = s.errCode)

/-- Rule R173: an error is sticky. While `ERR = 1` any sequence of commands is accepted and changes nothing; a reset
clears `ERR`. -/
def Obligations.ErrorIsStickyUntilReset : Prop :=
  (∀ (cs : List Command) (s : State), s.err = true → runCommands cs s = .next s) ∧
  (∀ (s : State) (rest : List HostInput), s.pending = .reset :: rest →
    ∃ t, step s = .next t ∧ t.err = false ∧ t.errCode = 0)

/-- Rule R85: a transfer with an assigned opcode and an illegal byte count raises `ILLEGAL_NB` and does nothing else,
whatever its `DATA` and with or without a live context. -/
def Obligations.IllegalByteCountRaises : Prop :=
  ∀ (c : Command) (s : State), s.err = false → illegalByteCount c.cmd = true →
    runCommand c s = .next { s with err := true, errCode := 2 }

/-- The step raises `ILLEGAL_NB` for a presented transfer whose byte count is illegal, with no other effect than taking
it off the port. The list of pending inputs is the model's, assumption log 3. -/
def Obligations.StepRaisesIllegalByteCount : Prop :=
  ∀ (s : State) (c : Command) (rest : List HostInput), s.pending = .command c :: rest → s.busy = false →
    s.err = false → illegalByteCount c.cmd = true →
    step s = .next { s with err := true, errCode := 2, pending := rest }

/-! ### The step -/

/-- A step runs the decoded instruction on the state with the transfer taken off the port. The list of pending inputs
is the model's, assumption log 3. -/
def Obligations.StepRunsDecodedInstruction : Prop :=
  ∀ (s : State) (c : Command) (rest : List HostInput) (i : Instr),
    s.pending = .command c :: rest → s.busy = false → decode c = .ok i →
    i.wellFormed = true ∧ step s = exec i (s.setPending rest)

/-- With nothing presented, or a command presented while `BUSY = 1`, a step changes nothing (rule R194: a command is
taken only with `cmd_ready = 1`). That such a step is a step at all is the model's choice, assumption log 4. -/
def Obligations.StepWaitsWhenNotReady : Prop :=
  ∀ s : State, (s.pending = [] → step s = .next s) ∧
    (∀ c rest, s.pending = .command c :: rest → s.busy = true → step s = .next s)

/-- A reset input takes effect in any state, busy or not: every field has its value of 10_state.md rule R47 where the
rule gives one, and the block is ready. That the host's later inputs stay pending is the model's, assumption log 11. -/
def Obligations.StepAppliesReset : Prop :=
  ∀ (s : State) (rest : List HostInput), s.pending = .reset :: rest →
    ∃ t, step s = .next t ∧ t.active = false ∧ t.digestValid = false ∧ t.err = false ∧ t.errCode = 0 ∧
      t.busy = false ∧ t.ctx.bufCnt = 0 ∧ t.ctx.totalLen = 0 ∧ statusWord t = 0 ∧ cmdReady t = true ∧
      t.pending = rest

/-- Rule R196: the step is total. No command and no step ends in a fault or a refusal, from any state. -/
def Obligations.StepAlwaysCompletes : Prop :=
  (∀ (c : Command) (s : State), Completes (runCommand c s)) ∧ (∀ s : State, Completes (step s))

/-- The state after a sequence of transferred commands is the left fold of the transition over them (rule R71, rule
R196): steps of the machine over pending commands do what `runCommands` does. The list of pending inputs is the
model's, assumption log 3. -/
def Obligations.StepsFoldOverCommands : Prop :=
  ∀ (cs : List Command) (rest : List HostInput) (s : State), s.busy = false →
    s.pending = cs.map HostInput.command ++ rest →
    Host.Core.run Sys2Proof.core cs.length s = runCommands cs (s.setPending rest)

/-! ### State, flags and ports -/

/-- Rule R47: the values after reset that the spec gives. -/
def Obligations.ResetValues : Prop :=
  State.reset.active = false ∧ State.reset.digestValid = false ∧ State.reset.err = false ∧
    State.reset.errCode = 0 ∧ State.reset.busy = false ∧ State.reset.ctx.bufCnt = 0 ∧
    State.reset.ctx.totalLen = 0 ∧ statusWord State.reset = 0x0000

/-- Rule R41: the layout of `STATUS`. -/
def Obligations.StatusLayout : Prop :=
  ∀ s : State, (statusWord s).getLsbD 0 = s.active ∧ (statusWord s).getLsbD 1 = s.digestValid ∧
    (statusWord s).getLsbD 2 = s.err ∧ (statusWord s).getLsbD 3 = s.busy ∧
    (statusWord s).extractLsb' 4 4 = s.errCode ∧ (statusWord s).extractLsb' 8 8 = 0#8

/-- Rule R66: byte `k` of the digest is on bits `8k+7..8k` of the port, so the serialized lane `i` is on bits
`64i+63..64i`. -/
def Obligations.DigestPortCarriesLanes : Prop :=
  (∀ (d : Vector Byte 32) (k : Fin 32), (digestBits d).extractLsb' (8 * k.val) 8 = d[k]) ∧
  (∀ (lane : Vector Word 4) (i : Fin 4), (digestBits (serialize lane)).extractLsb' (64 * i.val) 64 = lane[i])

/-- The host's read of `digest` has a value exactly when `BUSY = 0` and `DIGEST_VALID = 1` (10_state.md rule R37,
70_reset_and_hazards.md rule R198); any other read is the fault of assumption log 8. -/
def Obligations.DigestReadNeedsValid : Prop :=
  ∀ s : State,
    (s.busy = false → s.digestValid = true → readDigest s = .ok (digestBits s.digest)) ∧
    (s.busy = true ∨ s.digestValid = false → readDigest s = .error .digestNotValid)

/-- Which commands write which field, for every command and state (rules R31, R32, R34 and R36): a field that changes
names the command that changed it, and no command changes `BUSY` or the host's inputs. -/
def Obligations.FieldsChangeOnlyByTheirWriters : Prop :=
  ∀ (c : Command) (s t : State), runCommand c s = .next t →
    (t.ctx.lane ≠ s.ctx.lane → verdict c.cmd = .init ∨
      s.active = true ∧ (verdict c.cmd = .finalize ∨ ∃ nb, verdict c.cmd = .absorb nb)) ∧
    (t.ctx.buf ≠ s.ctx.buf → s.active = true ∧ ∃ nb, verdict c.cmd = .absorb nb) ∧
    (t.ctx.totalLen ≠ s.ctx.totalLen →
      (verdict c.cmd = .init ∧ t.ctx.totalLen = 0) ∨
      (s.active = true ∧ ∃ nb, verdict c.cmd = .absorb nb ∧
        t.ctx.totalLen = s.ctx.totalLen + nb.setWidth 64)) ∧
    (t.digest ≠ s.digest → s.active = true ∧ verdict c.cmd = .finalize) ∧
    t.busy = s.busy ∧ t.pending = s.pending

/-- Each context yields exactly one digest (rule R151): `DIGEST` is written and `DIGEST_VALID` set only by a FINALIZE of a
live context, which consumes it; and only INIT makes a context live again, so FINALIZE succeeds once per INIT. -/
def Obligations.OneDigestPerContext : Prop :=
  ∀ (c : Command) (s t : State), runCommand c s = .next t →
    (s.digestValid = false → t.digestValid = true →
      verdict c.cmd = .finalize ∧ s.active = true ∧ t.active = false) ∧
    (t.digest ≠ s.digest → verdict c.cmd = .finalize ∧ s.active = true ∧ t.active = false) ∧
    (s.active = false → t.digest = s.digest ∧ (t.digestValid = true → s.digestValid = true)) ∧
    (s.active = false → t.active = true → verdict c.cmd = .init ∧ t.digestValid = false)

/-! ### Invariants -/

/-- The reset state meets the invariants of rule R48. -/
def Obligations.ResetMeetsBlockInv : Prop := BlockInv State.reset

/-- Every step keeps the invariants of rule R48, (a) to (e). -/
def Obligations.StepKeepsBlockInv : Prop := ∀ s t : State, BlockInv s → step s = .next t → BlockInv t

/-- No host can see what the spec leaves open (rules R32, R37, R45, R46, R47): two states that differ only in stale
buffer bytes, in the context while none is live, and in a digest that is not valid, show the same `STATUS` and the same
digest read, and every step takes them to such states again. The zeros of the reset state (assumption log 1) are
therefore unobservable. -/
def Obligations.HiddenStateUnobservable : Prop :=
  ∀ s t : State, SameView s t →
    statusWord s = statusWord t ∧ readDigest s = readDigest t ∧
    ∀ s', step s = .next s' → ∃ t', step t = .next t' ∧ SameView s' t'

/-! ### The stream and the digest -/

/-- Rule R120: two sequences of ABSORB commands with the same stream take a live block to the same state. -/
def Obligations.PartitionIndependence : Prop :=
  ∀ (cs ds : List Command) (s : State), (∀ c ∈ cs, isAbsorb c = true) → (∀ c ∈ ds, isAbsorb c = true) →
    streamOf cs = streamOf ds → s.err = false → s.active = true →
    ∃ t, runCommands cs s = .next t ∧ runCommands ds s = .next t

/-- Rule R61: the absorbed stream of a context is the bytes of the ABSORBs accepted without error since its INIT, in
order. After any commands, an INIT accepted without error starts it empty, and ABSORBs and NOPs then add exactly the
bytes of the ABSORBs; a command that is discarded, an ABSORB without a live context, a FINALIZE and an illegal command
add nothing. -/
def Obligations.AcceptedStreamSinceInit : Prop :=
  (∀ (before cs : List Command) (seed : Word) (s m : State) (i : ContextInput),
    runCommands before s = .next m → m.err = false → (∀ c ∈ cs, isAbsorb c = true ∨ c.cmd = 0x00) →
    contextInput (before ++ ⟨0x10, seed⟩ :: cs) s i = ⟨seed, (cs.filter isAbsorb).flatMap commandBytes⟩) ∧
  (∀ (before : List Command) (c : Command) (s m : State) (i : ContextInput), runCommands before s = .next m →
    (m.err = true ∨ (m.active = false ∧ isAbsorb c = true) ∨ verdict c.cmd = .finalize ∨ 4 ≤ c.cmd.toNat / 16 ∨
      illegalByteCount c.cmd = true) →
    contextInput (before ++ [c]) s i = contextInput before s i)

/-- Whatever commands a block is given, legal or not, from a state with no live context and no valid digest: a live
context is the closed form of rule R121 over its seed and its accepted stream (rule R61), and a valid digest is
`H(seed, stream)` (rule R148) of them. Bytes of an abandoned context, of a discarded ABSORB or of one in error never
enter. -/
def Obligations.EveryDigestIsOfTheAcceptedStream : Prop :=
  ∀ (cs : List Command) (s t : State) (i : ContextInput), s.active = false → s.digestValid = false →
    runCommands cs s = .next t →
    (t.active = true →
      t.ctx.lane = streamLanes Config.params (contextInput cs s i).seed (contextInput cs s i).stream ∧
      t.ctx.bufCnt.toNat = (contextInput cs s i).stream.length % 8 ∧
      validBytes t.ctx =
        (contextInput cs s i).stream.drop (8 * ((contextInput cs s i).stream.length / 8)) ∧
      t.ctx.totalLen = BitVec.ofNat 64 (contextInput cs s i).stream.length) ∧
    (t.digestValid = true →
      t.digest = hashDigest Config.params (contextInput cs s i).seed (contextInput cs s i).stream)

/-- Rule R121: the context after INIT and any ABSORBs, in closed form over the stream. -/
def Obligations.StreamClosedForm : Prop :=
  ∀ (seed : Word) (cs : List Command) (s : State), (∀ c ∈ cs, isAbsorb c = true) → s.err = false →
    ∃ t, runCommands (⟨0x10, seed⟩ :: cs) s = .next t ∧
      (let bytes := streamOf cs
       t.ctx.lane = (streamWords bytes).foldl (fun lane w => laneUpdate Config.params w lane)
         (laneInit Config.params seed) ∧
       t.ctx.bufCnt.toNat = bytes.length % 8 ∧
       validBytes t.ctx = bytes.drop (8 * (bytes.length / 8)) ∧
       t.ctx.totalLen = BitVec.ofNat 64 bytes.length)

/-- Rule R148: INIT, any ABSORBs and FINALIZE leave the digest `H(seed, s)` of the seed and the stream, valid and
readable, whatever the state before, if no error stood. -/
def Obligations.DigestOfSeedAndStream : Prop :=
  ∀ (seed data : Word) (cs : List Command) (s : State), (∀ c ∈ cs, isAbsorb c = true) → s.err = false →
    s.busy = false →
    ∃ t, runCommands (⟨0x10, seed⟩ :: (cs ++ [⟨0x30, data⟩])) s = .next t ∧
      t.digest = hashDigest Config.params seed (streamOf cs) ∧
      readDigest t = .ok (digestBits (hashDigest Config.params seed (streamOf cs)))

/-- Rule R88: ABSORBS expands to legal ABSORB commands that carry exactly its bytes. -/
def Obligations.AbsorbsExpansionCarriesBytes : Prop :=
  ∀ bytes : List Byte,
    (∀ i ∈ absorbsExpansion bytes, isAbsorb (encode i) = true) ∧
    streamOf ((absorbsExpansion bytes).map encode) = bytes ∧
    (absorbsExpansion bytes).length = if bytes = [] then 1 else (bytes.length + 7) / 8

/-- Rule R123: the one-shot HASH pseudo-instruction (rule R89) leaves the digest `H(seed, bytes)`, and INIT, any ABSORBs
of the same stream and FINALIZE leave the same digest. -/
def Obligations.OneShotHashDigest : Prop :=
  ∀ (seed : Word) (bytes : List Byte) (s : State), s.err = false → s.busy = false →
    ∃ t, runCommands ((hashExpansion seed bytes).map encode) s = .next t ∧
      readDigest t = .ok (digestBits (hashDigest Config.params seed bytes)) ∧
      t.active = false ∧ t.err = false ∧
      ∀ (cs : List Command) (data : Word), (∀ c ∈ cs, isAbsorb c = true) → streamOf cs = bytes →
        ∃ u, runCommands (⟨0x10, seed⟩ :: (cs ++ [⟨0x30, data⟩])) s = .next u ∧ u.digest = t.digest

/-- Rule R149: the digest bytes of lane `i` depend on the parameters only through `KC[0]`, `KC[i]` and `WROT[i]`; and
for the empty stream and the seed `KC[i]` they are 0, for every value of the parameters. -/
def Obligations.DigestLaneIndependence : Prop :=
  (∀ (P Q : Params) (i : Fin 4), P.kc 0 = Q.kc 0 → P.kc i = Q.kc i → P.wrot i = Q.wrot i →
    ∀ (seed : Word) (bytes : List Byte) (j : Fin 8),
      (hashDigest P seed bytes)[8 * i.val + j.val] = (hashDigest Q seed bytes)[8 * i.val + j.val]) ∧
  (∀ (P : Params) (i : Fin 4) (j : Fin 8), (hashDigest P (P.kc i) [])[8 * i.val + j.val] = 0#8)

/-- Rule R150: a trailing zero byte inside the same final word gives the same lanes after the padded word is mixed; only
the length fold tells the two streams apart. -/
def Obligations.PaddingAmbiguityIsKept : Prop :=
  ∀ (P : Params) (seed : Word) (bytes : List Byte), bytes.length % 8 ≠ 0 →
    streamTail P (bytes ++ [0]) (streamLanes P seed (bytes ++ [0])) = streamTail P bytes (streamLanes P seed bytes)

/-! ### The pins, the platform and the assembler -/

/-- Every edge keeps the clocked invariant: `BUSY` says exactly whether a command is in progress. The command in
progress is the model's record of it, assumption log 5. -/
def Obligations.EdgeKeepsClockInv : Prop :=
  ∀ (T : Latencies) (p : Pins) (k k' : ClockState), ClockInv k → tick T p k = .next k' → ClockInv k'

/-- Rules R197 and R198: a command transferred at an edge completes `LAT - 1` edges later, with the state of the
transaction-level transition; at every edge before that, the record is the one from before the command, with
`BUSY = 1`. The host may hold any next command, or none, steady meanwhile. That a command which raises an error or is
discarded takes the latency of its kind is the model's, assumption log 16. -/
def Obligations.CommandCompletesAtItsLatency : Prop :=
  ∀ (T : Latencies) (k : ClockState) (p q : Pins), ClockInv k → k.inFlight = none →
    keepsHandshake k.heldOff p = true → p.rstN = true → p.cmdValid = true → q.rstN = true →
    (∀ n, n + 1 < latencyOf T p.command →
      ∃ k', ticks T (p :: List.replicate n q) k = .next k' ∧ k'.block = k.block.setBusy true) ∧
    (∃ k', ticks T (p :: List.replicate (latencyOf T p.command - 1) q) k = .next k' ∧
      runCommand p.command k.block = .next k'.block ∧ k'.inFlight = none ∧ cmdReady k'.block = true)

/-- At an edge with `rst_n = 0` every field that rule R47 gives a value for takes it, a command in progress is abandoned,
a presented one is not accepted, and the block is ready (rule R190). NOT the rule's but the model's choice, assumption
log 9: the reset releases the host from a command that was held off (`k'.heldOff = none`), and the edge has a next state
even where the host has dropped or changed that command; the spec does not say. -/
def Obligations.ResetEdgeAbandonsCommand : Prop :=
  ∀ (T : Latencies) (p : Pins) (k : ClockState), p.rstN = false →
    ∃ k', tick T p k = .next k' ∧ k'.inFlight = none ∧ k'.heldOff = none ∧ k'.block.active = false ∧
      k'.block.digestValid = false ∧ k'.block.err = false ∧ k'.block.errCode = 0 ∧ k'.block.busy = false ∧
      k'.block.ctx.bufCnt = 0 ∧ k'.block.ctx.totalLen = 0 ∧ statusWord k'.block = 0 ∧ cmdReady k'.block = true

/-- A host that drops or changes a command that was held off gets no meaning (rules R194, R201; assumption log 9). -/
def Obligations.BrokenHandshakeIsRefused : Prop :=
  ∀ (T : Latencies) (p : Pins) (k : ClockState) (c : Command), p.rstN = true → k.heldOff = some c →
    (p.cmdValid = false ∨ p.command ≠ c) → tick T p k = .refused .handshakeBroken

/-- Rule R183: a command to one instance runs there and never changes another. -/
def Obligations.InstancesAreIndependent : Prop :=
  ∀ (n : Nat) (k : Fin n) (c : Command) (p : Platform n),
    ∃ p', platformCommand k c p = .next p' ∧ runCommand c p[k] = .next p'[k] ∧
      ∀ j : Fin n, j ≠ k → p'[j] = p[j]

/-- Whatever line the assembler accepts, it assembles to well-formed instructions, and it rejects a byte count above 8
and a data bit above `8*nb` (rule R87). -/
def Obligations.AssembledLinesAreWellFormed : Prop :=
  (∀ (l : AsmLine) (is : List Instr), assembleLine l = some is → ∀ i ∈ is, i.wellFormed = true) ∧
  (∀ nb data : Nat, assembleLine (.absorb nb data) ≠ none ↔ nb ≤ 8 ∧ data < 2 ^ (8 * nb))
end

