-- ==== Sys2Proof/Laws/State.lean ====
section
/-! SUPPORT. What each named update of the record does to each field. -/

namespace Sys2Proof.Machine

/-! Updates of the context. -/

@[simp] theorem Context.setLane_lane (q : Context) (l : Vector Word 4) : (q.setLane l).lane = l := rfl
@[simp] theorem Context.setLane_buf (q : Context) (l : Vector Word 4) : (q.setLane l).buf = q.buf := rfl
@[simp] theorem Context.setLane_bufCnt (q : Context) (l : Vector Word 4) : (q.setLane l).bufCnt = q.bufCnt := rfl
@[simp] theorem Context.setLane_totalLen (q : Context) (l : Vector Word 4) : (q.setLane l).totalLen = q.totalLen := rfl

@[simp] theorem Context.setBuffer_lane (q : Context) (b : Vector Byte 8) (n : BitVec 3) : (q.setBuffer b n).lane = q.lane := rfl
@[simp] theorem Context.setBuffer_buf (q : Context) (b : Vector Byte 8) (n : BitVec 3) : (q.setBuffer b n).buf = b := rfl
@[simp] theorem Context.setBuffer_bufCnt (q : Context) (b : Vector Byte 8) (n : BitVec 3) : (q.setBuffer b n).bufCnt = n := rfl
@[simp] theorem Context.setBuffer_totalLen (q : Context) (b : Vector Byte 8) (n : BitVec 3) : (q.setBuffer b n).totalLen = q.totalLen := rfl

@[simp] theorem Context.setTotalLen_lane (q : Context) (n : Word) : (q.setTotalLen n).lane = q.lane := rfl
@[simp] theorem Context.setTotalLen_buf (q : Context) (n : Word) : (q.setTotalLen n).buf = q.buf := rfl
@[simp] theorem Context.setTotalLen_bufCnt (q : Context) (n : Word) : (q.setTotalLen n).bufCnt = q.bufCnt := rfl
@[simp] theorem Context.setTotalLen_totalLen (q : Context) (n : Word) : (q.setTotalLen n).totalLen = n := rfl

/-! Updates of the state. -/

@[simp] theorem State.setCtx_ctx (s : State) (k : Context) : (s.setCtx k).ctx = k := rfl
@[simp] theorem State.setCtx_active (s : State) (k : Context) : (s.setCtx k).active = s.active := rfl
@[simp] theorem State.setCtx_digest (s : State) (k : Context) : (s.setCtx k).digest = s.digest := rfl
@[simp] theorem State.setCtx_digestValid (s : State) (k : Context) : (s.setCtx k).digestValid = s.digestValid := rfl
@[simp] theorem State.setCtx_err (s : State) (k : Context) : (s.setCtx k).err = s.err := rfl
@[simp] theorem State.setCtx_errCode (s : State) (k : Context) : (s.setCtx k).errCode = s.errCode := rfl
@[simp] theorem State.setCtx_busy (s : State) (k : Context) : (s.setCtx k).busy = s.busy := rfl
@[simp] theorem State.setCtx_pending (s : State) (k : Context) : (s.setCtx k).pending = s.pending := rfl

@[simp] theorem State.setLife_ctx (s : State) (a v : Bool) : (s.setLife a v).ctx = s.ctx := rfl
@[simp] theorem State.setLife_active (s : State) (a v : Bool) : (s.setLife a v).active = a := rfl
@[simp] theorem State.setLife_digest (s : State) (a v : Bool) : (s.setLife a v).digest = s.digest := rfl
@[simp] theorem State.setLife_digestValid (s : State) (a v : Bool) : (s.setLife a v).digestValid = v := rfl
@[simp] theorem State.setLife_err (s : State) (a v : Bool) : (s.setLife a v).err = s.err := rfl
@[simp] theorem State.setLife_errCode (s : State) (a v : Bool) : (s.setLife a v).errCode = s.errCode := rfl
@[simp] theorem State.setLife_busy (s : State) (a v : Bool) : (s.setLife a v).busy = s.busy := rfl
@[simp] theorem State.setLife_pending (s : State) (a v : Bool) : (s.setLife a v).pending = s.pending := rfl

@[simp] theorem State.setDigest_ctx (s : State) (d : Vector Byte 32) : (s.setDigest d).ctx = s.ctx := rfl
@[simp] theorem State.setDigest_active (s : State) (d : Vector Byte 32) : (s.setDigest d).active = s.active := rfl
@[simp] theorem State.setDigest_digest (s : State) (d : Vector Byte 32) : (s.setDigest d).digest = d := rfl
@[simp] theorem State.setDigest_digestValid (s : State) (d : Vector Byte 32) : (s.setDigest d).digestValid = s.digestValid := rfl
@[simp] theorem State.setDigest_err (s : State) (d : Vector Byte 32) : (s.setDigest d).err = s.err := rfl
@[simp] theorem State.setDigest_errCode (s : State) (d : Vector Byte 32) : (s.setDigest d).errCode = s.errCode := rfl
@[simp] theorem State.setDigest_busy (s : State) (d : Vector Byte 32) : (s.setDigest d).busy = s.busy := rfl
@[simp] theorem State.setDigest_pending (s : State) (d : Vector Byte 32) : (s.setDigest d).pending = s.pending := rfl

@[simp] theorem State.setErr_ctx (s : State) (e : Bool) (c : BitVec 4) : (s.setErr e c).ctx = s.ctx := rfl
@[simp] theorem State.setErr_active (s : State) (e : Bool) (c : BitVec 4) : (s.setErr e c).active = s.active := rfl
@[simp] theorem State.setErr_digest (s : State) (e : Bool) (c : BitVec 4) : (s.setErr e c).digest = s.digest := rfl
@[simp] theorem State.setErr_digestValid (s : State) (e : Bool) (c : BitVec 4) : (s.setErr e c).digestValid = s.digestValid := rfl
@[simp] theorem State.setErr_err (s : State) (e : Bool) (c : BitVec 4) : (s.setErr e c).err = e := rfl
@[simp] theorem State.setErr_errCode (s : State) (e : Bool) (c : BitVec 4) : (s.setErr e c).errCode = c := rfl
@[simp] theorem State.setErr_busy (s : State) (e : Bool) (c : BitVec 4) : (s.setErr e c).busy = s.busy := rfl
@[simp] theorem State.setErr_pending (s : State) (e : Bool) (c : BitVec 4) : (s.setErr e c).pending = s.pending := rfl

@[simp] theorem State.setBusy_ctx (s : State) (b : Bool) : (s.setBusy b).ctx = s.ctx := rfl
@[simp] theorem State.setBusy_active (s : State) (b : Bool) : (s.setBusy b).active = s.active := rfl
@[simp] theorem State.setBusy_digest (s : State) (b : Bool) : (s.setBusy b).digest = s.digest := rfl
@[simp] theorem State.setBusy_digestValid (s : State) (b : Bool) : (s.setBusy b).digestValid = s.digestValid := rfl
@[simp] theorem State.setBusy_err (s : State) (b : Bool) : (s.setBusy b).err = s.err := rfl
@[simp] theorem State.setBusy_errCode (s : State) (b : Bool) : (s.setBusy b).errCode = s.errCode := rfl
@[simp] theorem State.setBusy_busy (s : State) (b : Bool) : (s.setBusy b).busy = b := rfl
@[simp] theorem State.setBusy_pending (s : State) (b : Bool) : (s.setBusy b).pending = s.pending := rfl

@[simp] theorem State.setPending_ctx (s : State) (p : List HostInput) : (s.setPending p).ctx = s.ctx := rfl
@[simp] theorem State.setPending_active (s : State) (p : List HostInput) : (s.setPending p).active = s.active := rfl
@[simp] theorem State.setPending_digest (s : State) (p : List HostInput) : (s.setPending p).digest = s.digest := rfl
@[simp] theorem State.setPending_digestValid (s : State) (p : List HostInput) : (s.setPending p).digestValid = s.digestValid := rfl
@[simp] theorem State.setPending_err (s : State) (p : List HostInput) : (s.setPending p).err = s.err := rfl
@[simp] theorem State.setPending_errCode (s : State) (p : List HostInput) : (s.setPending p).errCode = s.errCode := rfl
@[simp] theorem State.setPending_busy (s : State) (p : List HostInput) : (s.setPending p).busy = s.busy := rfl
@[simp] theorem State.setPending_pending (s : State) (p : List HostInput) : (s.setPending p).pending = p := rfl

/-! Writing back what a field holds changes nothing. -/

theorem State.setCtx_self (s : State) : s.setCtx s.ctx = s := rfl
theorem State.setPending_self (s : State) : s.setPending s.pending = s := rfl
theorem State.setBusy_self (s : State) : s.setBusy s.busy = s := rfl

end Sys2Proof.Machine
end

