-- ==== Sys2Proof/Laws/Ops.lean ====
section
/-! SUPPORT. What the shared operations can do: raising an error, discarding a command, the context check, reset. -/

namespace Sys2Proof.Machine

theorem raiseErr_of_err {s : State} (h : s.err = true) (code : ErrCode) : raiseErr code s = s := by
  simp [raiseErr, h]

theorem raiseErr_of_noErr {s : State} (h : s.err = false) (code : ErrCode) :
    raiseErr code s = s.setErr true (errCodeBits code) := by
  simp [raiseErr, h]

theorem unlessErr_of_err {s : State} (h : s.err = true) (f : State → State) : unlessErr f s = s := by
  simp [unlessErr, h]

theorem unlessErr_of_noErr {s : State} (h : s.err = false) (f : State → State) : unlessErr f s = f s := by
  simp [unlessErr, h]

theorem withContext_of_active {s : State} (h : s.active = true) (f : State → State) : withContext f s = f s := by
  simp [withContext, h]

theorem withContext_of_inactive {s : State} (h : s.active = false) (f : State → State) :
    withContext f s = raiseErr .noContext s := by
  simp [withContext, h]

/-- All that raising an error can change: nothing, or `ERR` and `ERR_CODE` from `ERR = 0`. -/
theorem raiseErr_cases (code : ErrCode) (s : State) :
    (s.err = true ∧ raiseErr code s = s) ∨
      (s.err = false ∧ raiseErr code s = s.setErr true (errCodeBits code)) := by
  cases h : s.err
  · exact .inr ⟨rfl, raiseErr_of_noErr h code⟩
  · exact .inl ⟨rfl, raiseErr_of_err h code⟩

@[simp] theorem raiseErr_ctx (code : ErrCode) (s : State) : (raiseErr code s).ctx = s.ctx := by
  rcases raiseErr_cases code s with ⟨_, h⟩ | ⟨_, h⟩ <;> simp [h]

@[simp] theorem raiseErr_active (code : ErrCode) (s : State) : (raiseErr code s).active = s.active := by
  rcases raiseErr_cases code s with ⟨_, h⟩ | ⟨_, h⟩ <;> simp [h]

@[simp] theorem raiseErr_digest (code : ErrCode) (s : State) : (raiseErr code s).digest = s.digest := by
  rcases raiseErr_cases code s with ⟨_, h⟩ | ⟨_, h⟩ <;> simp [h]

@[simp] theorem raiseErr_digestValid (code : ErrCode) (s : State) :
    (raiseErr code s).digestValid = s.digestValid := by
  rcases raiseErr_cases code s with ⟨_, h⟩ | ⟨_, h⟩ <;> simp [h]

@[simp] theorem raiseErr_busy (code : ErrCode) (s : State) : (raiseErr code s).busy = s.busy := by
  rcases raiseErr_cases code s with ⟨_, h⟩ | ⟨_, h⟩ <;> simp [h]

@[simp] theorem raiseErr_pending (code : ErrCode) (s : State) : (raiseErr code s).pending = s.pending := by
  rcases raiseErr_cases code s with ⟨_, h⟩ | ⟨_, h⟩ <;> simp [h]

@[simp] theorem resetBlock_pending (s : State) : (resetBlock s).pending = s.pending := rfl

/-- Reset forgets everything but what the host will still present. -/
theorem resetBlock_congr {s t : State} (h : s.pending = t.pending) : resetBlock s = resetBlock t := by
  simp [resetBlock, h]

/-- A rejected transfer takes a next state: the error it names. -/
theorem rejectCommand_eq (code : ErrCode) (cmd : BitVec 8) (s : State) :
    rejectCommand (.illegal code cmd) s = .next (raiseErr code s) := rfl

end Sys2Proof.Machine
end

