-- ==== Sys2Proof/Laws/HashCore.lean ====
section
/-! SUPPORT. What hash_core's functions compute, lane by lane and byte by byte, and the cases of its commands. -/

namespace Sys2Proof.Machine

@[simp] theorem laneInit_getElem (P : Params) (seed : Word) (i : Nat) (h : i < 4) :
    (laneInit P seed)[i] = seed ^^^ P.kc ⟨i, h⟩ := by
  simp [laneInit]

@[simp] theorem laneUpdate_getElem (P : Params) (w : Word) (lane : Vector Word 4) (i : Nat) (h : i < 4) :
    (laneUpdate P w lane)[i] = mix P lane[i] (rotr w (P.wrot ⟨i, h⟩).val) (P.kc ⟨i, h⟩) := by
  simp [laneUpdate]

@[simp] theorem absorbBytes_nil (P : Params) (k : Context) : absorbBytes P [] k = k := rfl

@[simp] theorem absorbBytes_cons (P : Params) (b : Byte) (bs : List Byte) (k : Context) :
    absorbBytes P (b :: bs) k = absorbBytes P bs (absorbByte P k b) := rfl

theorem absorbBytes_append (P : Params) (bs cs : List Byte) (k : Context) :
    absorbBytes P (bs ++ cs) k = absorbBytes P cs (absorbBytes P bs k) := by
  simp [absorbBytes]

@[simp] theorem dataBytes_length (nb : BitVec 4) (data : Word) : (dataBytes nb data).length = nb.toNat := by
  simp [dataBytes]

/-- The two cases of one absorbed byte: the word is not complete, or it is and goes into the lanes. -/
theorem absorbByte_cases (P : Params) (k : Context) (b : Byte) :
    (k.bufCnt.toNat < 7 ∧
        absorbByte P k b = k.setBuffer (k.buf.set k.bufCnt.toNat b) (k.bufCnt + 1)) ∨
      (k.bufCnt.toNat = 7 ∧
        absorbByte P k b =
          (k.setLane (laneUpdate P (leWord (k.buf.set k.bufCnt.toNat b)) k.lane)).setBuffer
            (k.buf.set k.bufCnt.toNat b) 0) := by
  have h8 := k.bufCnt.isLt
  by_cases h : k.bufCnt.toNat + 1 = 8
  · exact .inr ⟨by omega, by simp [absorbByte, h]⟩
  · exact .inl ⟨by omega, by simp [absorbByte, h]⟩

@[simp] theorem absorbByte_totalLen (P : Params) (k : Context) (b : Byte) :
    (absorbByte P k b).totalLen = k.totalLen := by
  rcases absorbByte_cases P k b with ⟨_, h⟩ | ⟨_, h⟩ <;> simp [h]

/-- The length is no business of the byte step. -/
theorem absorbByte_setTotalLen (P : Params) (k : Context) (n : Word) (b : Byte) :
    absorbByte P (k.setTotalLen n) b = (absorbByte P k b).setTotalLen n := by
  by_cases h : k.bufCnt.toNat + 1 = 8 <;>
    simp [absorbByte, Context.setTotalLen, Context.setLane, Context.setBuffer, h]

/-- Accepting INIT with no error standing. -/
theorem initCommand_of_noErr {s : State} (h : s.err = false) (P : Params) (seed : Word) :
    initCommand P seed s =
      (s.setCtx (((s.ctx.setLane (laneInit P seed)).setBuffer s.ctx.buf 0).setTotalLen 0)).setLife true false := by
  simp [initCommand, unlessErr, h]

/-- Accepting a legal ABSORB with a live context and no error standing. -/
theorem absorbCommand_of_live {s : State} (herr : s.err = false) (hact : s.active = true) (P : Params)
    {nb : BitVec 4} (hnb : nb.toNat ≤ 8) (data : Word) :
    absorbCommand P nb data s = s.setCtx (absorbContext P nb data s.ctx) := by
  simp [absorbCommand, unlessErr, withContext, herr, hact, hnb]

/-- All that ABSORB can do: be discarded, raise an error, or change the context of a live block. -/
theorem absorbCommand_cases (P : Params) (nb : BitVec 4) (data : Word) (s : State) :
    (s.err = true ∧ absorbCommand P nb data s = s) ∨
      (s.err = false ∧ 8 < nb.toNat ∧ absorbCommand P nb data s = s.setErr true 2) ∨
      (s.err = false ∧ nb.toNat ≤ 8 ∧ s.active = false ∧ absorbCommand P nb data s = s.setErr true 3) ∨
      (s.err = false ∧ nb.toNat ≤ 8 ∧ s.active = true ∧
        absorbCommand P nb data s = s.setCtx (absorbContext P nb data s.ctx)) := by
  cases herr : s.err
  · by_cases hnb : nb.toNat ≤ 8
    · cases hact : s.active <;> simp [absorbCommand, unlessErr, withContext, raiseErr, errCodeBits, herr, hact, hnb]
    · simp [absorbCommand, unlessErr, raiseErr, errCodeBits, herr, hnb]; omega
  · simp [absorbCommand, unlessErr, herr]

end Sys2Proof.Machine
end

