-- ==== Sys2Proof/Laws/Finalizer.lean ====
section
/-! SUPPORT. What the finalizer's steps compute, lane by lane, and the cases of FINALIZE. -/

namespace Sys2Proof.Machine

@[simp] theorem foldLength_getElem (len : Word) (lane : Vector Word 4) (i : Nat) (h : i < 4) :
    (foldLength len lane)[i] = lane[i] ^^^ rotr len (lenRot ⟨i, h⟩) := by
  simp [foldLength]

@[simp] theorem avRound_getElem (P : Params) (lane : Vector Word 4) (i : Nat) (h : i < 4) :
    (avRound P lane)[i] = (lane[i] * P.kc ⟨i, h⟩) ^^^ rotr lane[i] (avRot ⟨i, h⟩) := by
  simp [avRound]

@[simp] theorem serialize_getElem (lane : Vector Word 4) (k : Nat) (h : k < 32) :
    (serialize lane)[k] = byteOf (lane[k / 8]'(by omega)) (k % 8) := by
  simp [serialize]

/-- Four rounds, one after another. -/
theorem avalanche_eq (P : Params) (lane : Vector Word 4) :
    avalanche P lane = avRound P (avRound P (avRound P (avRound P lane))) := rfl

/-- All that FINALIZE can do: be discarded, raise `NO_CONTEXT`, or produce the digest of a live context. -/
theorem finalizeCommand_cases (P : Params) (s : State) :
    (s.err = true ∧ finalizeCommand P s = s) ∨
      (s.err = false ∧ s.active = false ∧ finalizeCommand P s = s.setErr true 3) ∨
      (s.err = false ∧ s.active = true ∧
        finalizeCommand P s =
          ((s.setCtx ((s.ctx.setLane (finalLanes P s.ctx)).setBuffer s.ctx.buf 0)).setDigest
            (serialize (finalLanes P s.ctx))).setLife false true) := by
  cases herr : s.err <;> cases hact : s.active <;>
    simp [finalizeCommand, unlessErr, withContext, raiseErr, errCodeBits, herr, hact]

end Sys2Proof.Machine
end

