-- ==== Sys2Proof/Laws/Transfer.lean ====
section
/-! SUPPORT. What one transferred command can do, in one place: the equation of each instruction and of the sequence. -/

namespace Sys2Proof.Machine

theorem exec_nop (s : State) : exec .nop s = .next s := by
  simp [exec, execNop, unlessErr]

theorem exec_init (seed : Word) (s : State) : exec (.init seed) s = .next (initCommand Config.params seed s) := rfl

theorem exec_absorb (nb : BitVec 4) (data : Word) (s : State) :
    exec (.absorb nb data) s = .next (absorbCommand Config.params nb data s) := rfl

theorem exec_finalize (s : State) : exec .finalize s = .next (finalizeCommand Config.params s) := rfl

theorem exec_reserved40 (low : BitVec 6) (s : State) :
    exec (.reserved40 low) s = .next (raiseErr .illegalOpc s) := rfl

theorem exec_reserved80 (low : BitVec 7) (s : State) :
    exec (.reserved80 low) s = .next (raiseErr .illegalOpc s) := rfl

theorem runCommand_of_decode {c : Command} {i : Instr} (h : decode c = .ok i) (s : State) :
    runCommand c s = exec i s := by
  simp [runCommand, h]

theorem runCommand_of_reject {c : Command} {code : ErrCode} {cmd : BitVec 8}
    (h : decode c = .error (.illegal code cmd)) (s : State) : runCommand c s = .next (raiseErr code s) := by
  simp [runCommand, h, rejectCommand]

/-- One transferred command by the decoder's verdict: everything `runCommand` can do. -/
theorem runCommand_verdict (c : Command) (s : State) :
    runCommand c s =
      match verdict c.cmd with
      | .nop => .next s
      | .init => .next (initCommand Config.params c.data s)
      | .absorb nb => .next (absorbCommand Config.params nb c.data s)
      | .finalize => .next (finalizeCommand Config.params s)
      | .illegal code => .next (raiseErr code s) := by
  simp only [runCommand, decode]
  cases verdict c.cmd with
  | nop => exact exec_nop s
  | init => rfl
  | absorb nb => rfl
  | finalize => rfl
  | illegal code =>
    cases code with
    | illegalOpc => by_cases h : c.cmd.getLsbD 7 = true <;> simp only [h, if_true] <;> rfl
    | illegalNb => rfl
    | noContext => rfl

/-- The decoder accepts an ABSORB only with a legal byte count. -/
theorem verdict_absorb_le {cmd : BitVec 8} {nb : BitVec 4} (h : verdict cmd = .absorb nb) : nb.toNat ≤ 8 := by
  have all : ∀ cmd : BitVec 8, (match verdict cmd with
      | .absorb nb => decide (nb.toNat ≤ 8)
      | .nop | .init | .finalize | .illegal _ => true) = true := by decide +kernel
  have hc := all cmd
  rw [h] at hc
  exact of_decide_eq_true hc

/-- The head of a sequence of transfers, when it goes on. -/
theorem runCommands_cons_next {c : Command} {rest : List Command} {s s' : State} (h : runCommand c s = .next s') :
    runCommands (c :: rest) s = runCommands rest s' := by
  simp [runCommands, h]

/-- A sequence of transfers in two parts, when the first part goes on. -/
theorem runCommands_append {cs ds : List Command} {s t : State} (h : runCommands cs s = .next t) :
    runCommands (cs ++ ds) s = runCommands ds t := by
  induction cs generalizing s with
  | nil => cases h; rfl
  | cons c cs ih =>
    simp only [List.cons_append, runCommands] at h ⊢
    split at h
    · exact ih h
    · cases h
    · cases h

end Sys2Proof.Machine
end

