-- ==== Sys2Proof/Laws/Clock.lean ====
section
/-! SUPPORT. What one clock edge can do, by the state of the pins and of the block. -/

namespace Sys2Proof.Machine

theorem tick_of_reset (T : Latencies) {p : Pins} (h : p.rstN = false) (k : ClockState) :
    tick T p k = .next ⟨resetBlock k.block, none, none⟩ := by
  simp [tick, h]

theorem tick_of_idle (T : Latencies) {p : Pins} {k : ClockState} (hr : p.rstN = true)
    (hk : keepsHandshake k.heldOff p = true) (hf : k.inFlight = none) : tick T p k = tickIdle T p k.block := by
  simp [tick, hr, hk, hf]

theorem tick_of_busy (T : Latencies) {p : Pins} {k : ClockState} {f : InFlight} (hr : p.rstN = true)
    (hk : keepsHandshake k.heldOff p = true) (hf : k.inFlight = some f) :
    tick T p k = tickBusy f p k.block := by
  simp [tick, hr, hk, hf]

/-- A completion edge that goes on: the transition of the command, from the record with `BUSY = 0`. -/
theorem complete_next {c : Command} {b b' : State} {held : Option Command}
    (h : runCommand c (b.setBusy false) = .next b') : complete c b held = .next ⟨b', none, held⟩ := by
  simp [complete, h]

theorem tickBusy_waits {f : InFlight} (h : 1 < f.remaining) (p : Pins) (b : State) :
    tickBusy f p b = .next ⟨b, some { f with remaining := f.remaining - 1 }, presented p⟩ := by
  simp [tickBusy, Nat.not_le.mpr h]

theorem tickBusy_completes {f : InFlight} (h : f.remaining ≤ 1) (p : Pins) (b : State) :
    tickBusy f p b = complete f.command b (presented p) := by
  simp [tickBusy, h]

theorem ticks_cons_next {T : Latencies} {p : Pins} {rest : List Pins} {k k' : ClockState}
    (h : tick T p k = .next k') : ticks T (p :: rest) k = ticks T rest k' := by
  simp [ticks, h]

/-- A command to an instance that goes on changes that instance's record only. -/
theorem platformCommand_next {n : Nat} {i : Fin n} {c : Command} {p : Platform n} {s : State}
    (h : runCommand c p[i] = .next s) : platformCommand i c p = .next (p.set i s) := by
  simp only [Fin.getElem_fin] at h
  simp [platformCommand, h]

end Sys2Proof.Machine
end

