-- ==== Sys2Proof/Laws/PerInstr.lean ====
section
/-! SUPPORT. A statement for every instruction, lemma by lemma: its encoding lies in its row of the opcode table. -/

namespace Sys2Proof.Laws.TableRow

/-- The mask of an instruction's row of spec/opcode_table.json. -/
def rowMask : Instr → BitVec 8
  | .nop => 0xFF
  | .init _ => 0xFF
  | .absorb _ _ => 0xF0
  | .finalize => 0xFF
  | .reserved40 _ => 0xC0
  | .reserved80 _ => 0x80

/-- The match value of an instruction's row of spec/opcode_table.json. -/
def rowMatch : Instr → BitVec 8
  | .nop => 0x00
  | .init _ => 0x10
  | .absorb _ _ => 0x20
  | .finalize => 0x30
  | .reserved40 _ => 0x40
  | .reserved80 _ => 0x80

/-- The encoding of an instruction matches its row. -/
def Statement (i : Instr) : Prop := (encode i).cmd &&& rowMask i = rowMatch i

theorem nop : Statement .nop := by simp [Statement, encode, rowMask, rowMatch]

theorem init (seed : Word) : Statement (.init seed) := by
  simp [Statement, encode, rowMask, rowMatch]

theorem absorb (nb : BitVec 4) (data : Word) : Statement (.absorb nb data) := by
  revert nb
  simp only [Statement, encode, rowMask, rowMatch]
  decide

theorem finalize : Statement .finalize := by simp [Statement, encode, rowMask, rowMatch]

theorem reserved40 (low : BitVec 6) : Statement (.reserved40 low) := by
  revert low
  simp only [Statement, encode, rowMask, rowMatch]
  decide

theorem reserved80 (low : BitVec 7) : Statement (.reserved80 low) := by
  revert low
  simp only [Statement, encode, rowMask, rowMatch]
  decide

end Sys2Proof.Laws.TableRow
end

