-- ==== Sys2Proof/Laws/Stream.lean ====
section
/-! SUPPORT. What the byte step does to the valid bytes of the buffer, to the count and to the length, and what one transfer adds to a
context's stream, and how the words of a stream grow by one byte. -/

namespace Sys2Proof.Machine

@[simp] theorem validBytes_length (k : Context) : (validBytes k).length = k.bufCnt.toNat := by
  have := k.bufCnt.isLt
  simp [validBytes]
  omega

theorem validBytes_getElem? (k : Context) (j : Nat) (h : j < k.bufCnt.toNat) :
    (validBytes k)[j]? = some (k.buf[j]'(by have := k.bufCnt.isLt; omega)) := by
  have hlt := k.bufCnt.isLt
  have h8 : j < k.buf.toList.length := by simp; omega
  rw [validBytes, List.getElem?_take_of_lt h, List.getElem?_eq_getElem h8]
  simp

@[simp] theorem validBytes_setTotalLen (k : Context) (n : Word) : validBytes (k.setTotalLen n) = validBytes k := rfl

/-- The buffer after one more byte is the valid bytes and that byte, as far as they reach. -/
theorem buffer_set_getElem (k : Context) (b : Byte) (j : Nat) (h : j < k.bufCnt.toNat + 1) :
    (validBytes k ++ [b])[j]? =
      some ((k.buf.set k.bufCnt.toNat b)[j]'(by have := k.bufCnt.isLt; omega)) := by
  rw [Vector.getElem_set]
  by_cases hj : k.bufCnt.toNat = j
  · subst hj
    rw [List.getElem?_append_right (by rw [validBytes_length])]
    simp
  · rw [List.getElem?_append_left (by rw [validBytes_length]; omega), validBytes_getElem? k j (by omega)]
    simp [hj]

/-- One absorbed byte, seen on the valid bytes: it joins them, or it completes the word that goes into the lanes. -/
theorem absorbByte_valid (P : Params) (k : Context) (b : Byte) :
    (k.bufCnt.toNat < 7 ∧ validBytes (absorbByte P k b) = validBytes k ++ [b] ∧
        (absorbByte P k b).lane = k.lane) ∨
      (k.bufCnt.toNat = 7 ∧ validBytes (absorbByte P k b) = [] ∧
        (absorbByte P k b).lane = laneUpdate P (leWord (spanAt (validBytes k ++ [b]) 0)) k.lane) := by
  rcases absorbByte_cases P k b with ⟨h, e⟩ | ⟨h, e⟩
  · refine .inl ⟨h, ?_, by rw [e]; rfl⟩
    have hc : (absorbByte P k b).bufCnt.toNat = k.bufCnt.toNat + 1 := by
      rw [e]
      simp [BitVec.toNat_add]
      omega
    apply List.ext_getElem?
    intro j
    by_cases hj : j < k.bufCnt.toNat + 1
    · rw [validBytes_getElem? _ _ (by omega), buffer_set_getElem k b j hj]
      simp [e]
    · rw [List.getElem?_eq_none (by rw [validBytes_length]; omega), List.getElem?_eq_none (by simp; omega)]
  · refine .inr ⟨h, by rw [e]; simp [validBytes], ?_⟩
    have hbuf : k.buf.set k.bufCnt.toNat b = spanAt (validBytes k ++ [b]) 0 := by
      apply Vector.ext
      intro j hj
      simp only [spanAt, Vector.getElem_ofFn, List.getD_eq_getElem?_getD, Nat.zero_add]
      rw [buffer_set_getElem k b j (by omega)]
      rfl
    rw [e, ← hbuf]
    rfl

theorem absorbByte_bufCnt (P : Params) (k : Context) (b : Byte) :
    (absorbByte P k b).bufCnt.toNat = (k.bufCnt.toNat + 1) % 8 := by
  rcases absorbByte_cases P k b with ⟨h, e⟩ | ⟨h, e⟩
  · rw [e]
    simp [BitVec.toNat_add]
  · rw [e]
    simp [h]

theorem absorbBytes_bufCnt (P : Params) (bs : List Byte) (k : Context) :
    (absorbBytes P bs k).bufCnt.toNat = (k.bufCnt.toNat + bs.length) % 8 := by
  induction bs generalizing k with
  | nil =>
    have := k.bufCnt.isLt
    simp
    omega
  | cons b bs ih =>
    rw [absorbBytes_cons, ih, absorbByte_bufCnt, List.length_cons]
    omega

@[simp] theorem absorbBytes_totalLen (P : Params) (bs : List Byte) (k : Context) :
    (absorbBytes P bs k).totalLen = k.totalLen := by
  induction bs generalizing k with
  | nil => rfl
  | cons b bs ih => rw [absorbBytes_cons, ih, absorbByte_totalLen]

theorem absorbBytes_setTotalLen (P : Params) (bs : List Byte) (k : Context) (n : Word) :
    absorbBytes P bs (k.setTotalLen n) = (absorbBytes P bs k).setTotalLen n := by
  induction bs generalizing k with
  | nil => rfl
  | cons b bs ih => rw [absorbBytes_cons, absorbBytes_cons, absorbByte_setTotalLen, ih]

@[simp] theorem contextInput_nil (s : State) (i : ContextInput) : contextInput [] s i = i := rfl

/-- The head of a sequence of transfers, when it goes on: it gives its part, the rest sees the state after it. -/
theorem contextInput_cons_next {c : Command} {s s' : State} (h : runCommand c s = .next s') (rest : List Command)
    (i : ContextInput) : contextInput (c :: rest) s i = contextInput rest s' (acceptInput c s i) := by
  simp [contextInput, h]

/-- The input of a sequence in two parts, when the first part goes on. -/
theorem contextInput_append {cs : List Command} {s t : State} (h : runCommands cs s = .next t) (ds : List Command)
    (i : ContextInput) : contextInput (cs ++ ds) s i = contextInput ds t (contextInput cs s i) := by
  induction cs generalizing s i with
  | nil => cases h; rfl
  | cons c cs ih =>
    cases hr : runCommand c s with
    | next s' =>
      simp only [runCommands, hr] at h
      rw [List.cons_append, contextInput_cons_next hr, contextInput_cons_next hr, ih h]
    | fault f => simp [runCommands, hr] at h
    | refused r => simp [runCommands, hr] at h

/-- All that one transfer can do to a context's input: nothing, start it anew, or add the bytes of an ABSORB. -/
theorem acceptInput_cases (c : Command) (s : State) (i : ContextInput) :
    acceptInput c s i = i ∨
      (s.err = false ∧ verdict c.cmd = .init ∧ acceptInput c s i = ⟨c.data, []⟩) ∨
      (s.err = false ∧ s.active = true ∧ ∃ nb, verdict c.cmd = .absorb nb ∧
        acceptInput c s i = { i with stream := i.stream ++ dataBytes nb c.data }) := by
  cases herr : s.err
  · cases hv : verdict c.cmd with
    | nop => simp [acceptInput, herr, hv]
    | init => simp [acceptInput, herr, hv]
    | absorb nb => cases hact : s.active <;> simp [acceptInput, herr, hact, hv]
    | finalize => simp [acceptInput, herr, hv]
    | illegal code => simp [acceptInput, herr, hv]
  · simp [acceptInput, herr]

theorem acceptInput_of_err {s : State} (h : s.err = true) (c : Command) (i : ContextInput) :
    acceptInput c s i = i := by
  simp [acceptInput, h]

/-- A span inside a stream is not changed by what follows. -/
theorem spanAt_append (s t : List Byte) (n : Nat) (h : n + 8 ≤ s.length) : spanAt (s ++ t) n = spanAt s n := by
  apply Vector.ext
  intro j hj
  simp only [spanAt, Vector.getElem_ofFn, List.getD_eq_getElem?_getD]
  rw [List.getElem?_append_left (by omega)]

/-- A byte that completes no word leaves the words of the stream as they are. -/
theorem streamWords_append_partial (s : List Byte) (b : Byte) (h : s.length % 8 < 7) :
    streamWords (s ++ [b]) = streamWords s := by
  have hq : (s ++ [b]).length / 8 = s.length / 8 := by simp; omega
  rw [streamWords, hq, streamWords]
  apply List.map_congr_left
  intro k hk
  rw [streamWord, streamWord, spanAt_append]
  have := List.mem_range.mp hk
  omega

/-- A byte that completes a word appends it to the words of the stream. -/
theorem streamWords_append_complete (s : List Byte) (b : Byte) (h : s.length % 8 = 7) :
    streamWords (s ++ [b]) = streamWords s ++ [streamWord (s ++ [b]) (s.length / 8)] := by
  have hq : (s ++ [b]).length / 8 = s.length / 8 + 1 := by simp; omega
  rw [streamWords, hq, List.range_succ, List.map_append, streamWords]
  congr 1
  apply List.map_congr_left
  intro k hk
  rw [streamWord, streamWord, spanAt_append]
  have := List.mem_range.mp hk
  omega

end Sys2Proof.Machine
end

