-- ==== Sys2Proof/Tests/Slice0.lean ====
section
/-! SUPPORT. Tests: ill-formed instructions, words written out from the encoding tables, the vectors of
95_test_vectors.md (their numbers are named), and for every statement with hypotheses a witness that meets them. The
configurations TC-A and TC-B are the spec's test values, not the hardware's. -/

namespace Sys2Proof.Tests

open Sys2Proof.Machine

/-! ### Helpers -/

/-- Configuration TC-A (95_test_vectors.md section 0). -/
def tcA : Params where
  kc := ![0x9E3779B97F4A7C15, 0xC2B2AE3D27D4EB4F, 0x165667B19E3779F9, 0xD6E8FEB86659FD93]
  wrot _ := 0
  kc_odd := by decide
  kc_distinct := by decide

/-- Configuration TC-B: TC-A with word rotations. -/
def tcB : Params := { tcA with wrot := ![0, 13, 29, 47] }

/-- A context with the given lanes, buffer, count and length. -/
def ctxOf (lane : Vector Word 4) (buf : Vector Byte 8) (cnt : BitVec 3) (len : Word) : Context := ⟨lane, buf, cnt, len⟩

/-- The seeded lanes of seed 0 in TC-A and TC-B. -/
def lanes0 : Vector Word 4 :=
  #v[0x9E3779B97F4A7C15, 0xC2B2AE3D27D4EB4F, 0x165667B19E3779F9, 0xD6E8FEB86659FD93]

/-- A live block with the given context. -/
def live (k : Context) : State := { State.reset with ctx := k, active := true }

/-- A live block after INIT with a zero lane and nothing absorbed. -/
def liveZero : State := live State.reset.ctx

/-- The reset block with the error `NO_CONTEXT` standing. -/
def failed : State := { State.reset with err := true, errCode := 3 }

/-- The state of an outcome that goes on, or the reset state. -/
def stateOf : Host.Outcome State Fault Refusal → State
  | .next s => s
  | .fault _ => State.reset
  | .refused _ => State.reset

/-! ### Well-formedness: the one check refuses -/

theorem test_wf_refuses_nine : (Instr.absorb 9 0).wellFormed = false := by decide
theorem test_wf_accepts_eight : (Instr.absorb 8 0).wellFormed = true := by decide

/-! ### Words written out from rules R80 and R81 -/

theorem test_decode_nop : decode ⟨0b0000_0000#8, 0xFF⟩ = .ok .nop := by rfl
theorem test_decode_init : decode ⟨0b0001_0000#8, 7⟩ = .ok (.init 7) := by rfl
theorem test_decode_absorb : decode ⟨0b0010_1000#8, 0x6867666564636261⟩ = .ok (.absorb 8 0x6867666564636261) := by rfl
theorem test_decode_absorb_three : decode ⟨0b0010_0011#8, 0x636261⟩ = .ok (.absorb 3 0x636261) := by rfl
theorem test_decode_finalize : decode ⟨0b0011_0000#8, 1⟩ = .ok .finalize := by rfl
theorem test_decode_reserved40 : decode ⟨0b0100_1111#8, 0⟩ = .ok (.reserved40 0b00_1111) := by rfl
theorem test_decode_reserved80 : decode ⟨0b1100_0001#8, 0⟩ = .ok (.reserved80 0b100_0001) := by rfl
theorem test_decode_rejects_absorb_nine : decode ⟨0b0010_1001#8, 0⟩ = .error (.illegal .illegalNb 0x29) := by rfl
theorem test_decode_rejects_finalize_one : decode ⟨0b0011_0001#8, 0⟩ = .error (.illegal .illegalNb 0x31) := by rfl
theorem test_table_word : decodeTableWord 8 0x23 = some (.absorb 3 0) := by rfl
theorem test_table_word_runs : step (State.reset.withFetchWord 8 0x40) =
    .next { State.reset with err := true, errCode := 1 } := by rfl

/-! ### Operands: vectors N-2, N-4, W-1 and F-1 -/

theorem test_rotr_wraps : rotr 0x8000000000000000 63 = 1 := by decide
theorem test_rotr_four : rotr 0x0123456789ABCDEF 4 = 0xF0123456789ABCDE := by decide
theorem test_leWord : leWord #v[0x61, 0x62, 0x63, 0x64, 0x65, 0x66, 0x67, 0x68] = 0x6867666564636261 := by decide
theorem test_pad_ignores_stale : pad #v[0x61, 0x62, 0x63, 0xFF, 0xFF, 0xFF, 0xFF, 0xFF] 3 = 0x636261 := by decide

/-! ### The mix and the finalizer's pieces: vectors M-2, M-6, F-5 and F-8 -/

theorem test_mix_one : mix tcA 0 1 (tcA.kc 0) = 0x17B6BD55DFA33663 := by decide
theorem test_mix_lane_two : mix tcA (tcA.kc 1) 0x6867666564636261 (tcA.kc 1) = 0xE42307A7959E78DB := by decide
theorem test_fold_terms : foldLength 0x0123456789ABCDEF #v[0, 0, 0, 0] =
    #v[0x0123456789ABCDEF, 0xE6F78091A2B3C4D5, 0x13579BDE02468ACF, 0x8ACF13579BDE0246] := by decide
theorem test_avRound_one : avRound tcA #v[1, 0, 0, 1] = #v[0x9E3779B17F4A7C15, 0, 0, 0xD6E8FEB86E59FD93] := by decide

/-! ### The commands, at most two vectors each -/

/-- I-2. -/
theorem test_init_all_ones : (initCommand tcA 0xFFFFFFFFFFFFFFFF State.reset).ctx.lane =
    #v[0x61C8864680B583EA, 0x3D4D51C2D82B14B0, 0xE9A9984E61C88606, 0x2917014799A6026C] := by decide

/-- I-5: INIT after a digest clears `DIGEST_VALID` and keeps the bytes. -/
theorem test_init_clears_valid :
    let s : State := { State.reset with digestValid := true, digest := Vector.replicate 32 0x5A }
    statusWord (initCommand tcA 0 s) = 0x0001 ∧ (initCommand tcA 0 s).digest = s.digest := by decide

/-- A-7, second command, in TC-B: the word is completed and one byte stays. -/
theorem test_absorb_splits_word :
    let k := ctxOf lanes0 #v[0x61, 0x62, 0x63, 0x64, 0x65, 0, 0, 0] 5 5
    let t := (absorbCommand tcB 4 0x69686766 (live k)).ctx
    t.lane = #v[0x452A29C0298E6378, 0x76D3CD1EBF9E654C, 0xB5C3AD8FA96B3AEB, 0xE89B768A4FE58603] ∧
      t.buf[0] = 0x69 ∧ t.bufCnt = 1 ∧ t.totalLen = 9 := by decide

/-- A-9: the length wraps. -/
theorem test_absorb_length_wraps :
    let k := ctxOf lanes0 (Vector.replicate 8 0) 0 0xFFFFFFFFFFFFFFF8
    let t := (absorbCommand tcA 8 0x6867666564636261 (live k)).ctx
    t.totalLen = 0 ∧
      t.lane = #v[0x452A29C0298E6378, 0xE42307A7959E78DB, 0xB3C49C393F4E462F, 0xB80C5A735A83D836] := by decide

/-- F-10 and F-11: the empty stream. -/
theorem test_finalize_empty : (finalizeCommand tcA (live (ctxOf lanes0 (Vector.replicate 8 0xEE) 0 0))).digest =
    #v[0x5d, 0xff, 0xd0, 0xe7, 0xe6, 0xfe, 0xc4, 0xec, 0xdc, 0x54, 0xd2, 0x51, 0x04, 0xa1, 0x3d, 0x24,
       0x30, 0x19, 0x31, 0x55, 0x0b, 0xd3, 0x11, 0x91, 0x9f, 0xf7, 0x1b, 0xa8, 0x9d, 0x68, 0x45, 0x3b] := by decide

/-- F-12: "abc", with stale bytes above it. -/
theorem test_finalize_abc :
    (finalizeCommand tcA (live (ctxOf lanes0 #v[0x61, 0x62, 0x63, 9, 9, 9, 9, 9] 3 3))).ctx.lane =
      #v[0x0A0292F0ADBE1CDB, 0x21F1395933D0824B, 0x970C7EEB816378DB, 0x0BF916CF1B281185] := by decide

/-- The TC-B entry of section 2.7 for seed 0 and "abcdefghi", through the closed form of rule R148. -/
theorem test_hash_abcdefghi :
    (hashLanes tcB 0 [0x61, 0x62, 0x63, 0x64, 0x65, 0x66, 0x67, 0x68, 0x69]) =
      #v[0x5A76855F935338CF, 0x8A08C6F34670E34C, 0x9A6CC89CEB19AEBC, 0xD7B503A78A566B3B] := by decide

/-! ### Errors: vectors E-2, E-3, E-4, E-5, E-7 and E-9 -/

theorem test_absorb_without_context :
    let t := stateOf (runCommand ⟨0x23, 0x636261⟩ State.reset)
    statusWord t = 0x0034 ∧ t.ctx.totalLen = 0 := by decide
theorem test_error_discards_init : statusWord (stateOf (runCommand ⟨0x10, 0⟩ failed)) = 0x0034 := by decide
theorem test_second_finalize :
    statusWord (stateOf (exec .finalize { State.reset with digestValid := true })) = 0x0036 := by decide
theorem test_illegal_count_keeps_active : statusWord (stateOf (runCommand ⟨0x29, 0⟩ liveZero)) = 0x0025 := by decide
theorem test_illegal_opcode_first : statusWord (stateOf (runCommand ⟨0x4F, 0⟩ State.reset)) = 0x0014 := by decide
theorem test_illegal_count_before_context :
    statusWord (stateOf (runCommand ⟨0x29, 0⟩ State.reset)) = 0x0024 := by decide
theorem test_nop_without_context : statusWord (stateOf (exec .nop State.reset)) = 0x0000 := by decide
theorem test_reset_clears_error :
    step { failed with pending := [.reset] } = .next State.reset := by rfl

/-! ### Ports, pins, assembler -/

theorem test_digest_port_low_byte :
    (digestBits (serialize #v[0x1122334455667788, 0, 0, 0x99AABBCCDDEEFF00])).extractLsb' 0 16 = 0x7788#16 := by decide

/-- Three edges of an INIT with latency 3: `BUSY` falls at the third. -/
theorem test_clock_init_latency :
    let T : Latencies := ⟨3, 1, 1, by decide⟩
    let p : Pins := ⟨true, true, ⟨0x10, 0⟩⟩
    let q : Pins := ⟨true, false, ⟨0, 0⟩⟩
    let view := fun o : Host.Outcome ClockState Fault Refusal =>
      match o with
      | .next k => some (statusWord k.block)
      | .fault _ => none
      | .refused _ => none
    view (ticks T [p] ClockState.reset) = some 0x0008 ∧
      view (ticks T [p, q] ClockState.reset) = some 0x0008 ∧
      view (ticks T [p, q, q] ClockState.reset) = some 0x0001 := by decide

theorem test_assemble_line : assembleText "ABSORB 3, 0x636261 ; abc".toList = some [⟨0x23, 0x636261⟩] := by decide
theorem test_assemble_rejects_high_bits : assembleText "ABSORB 1, 256".toList = none := by decide
theorem test_assemble_hash :
    assembleText "HASH 5, \"abcdefghi\"".toList =
      some [⟨0x10, 5⟩, ⟨0x28, 0x6867666564636261⟩, ⟨0x21, 0x69⟩, ⟨0x30, 0⟩] := by decide

/-! ### Witnesses: each statement's hypotheses, met together, a clause a line -/

theorem witness_DecodeEncodeAgree : (Instr.absorb 8 0x1122334455667788).wellFormed = true ∧
    (Instr.reserved80 0x7F).wellFormed = true := by decide

theorem witness_EncodeInvertsDecode : decode ⟨0x28, 0xFFFFFFFFFFFFFFFF⟩ = .ok (.absorb 8 0xFFFFFFFFFFFFFFFF) := by rfl

theorem witness_IgnoredDataBitsHaveNoEffect :
    verdict 0x23 ≠ .init ∧ ∀ nb, verdict 0x23 = .absorb nb → ∀ b < 8 * nb.toNat,
      (0xDEADBEEF00636261#64).getLsbD b = (0x636261#64).getLsbD b := by
  have h : verdict 0x23 = .absorb 3 := by decide
  refine ⟨by decide, fun nb hnb => ?_⟩
  rw [h, Verdict.absorb.injEq] at hnb
  subst hnb
  decide

theorem witness_AbsorbTakesLowBytesInOrder :
    (8#4).toNat ≤ 8 ∧ (∀ b < 8 * (3#4).toNat, (0xDEADBEEF00636261#64).getLsbD b = (0x636261#64).getLsbD b) ∧
      liveZero.err = false ∧ liveZero.active = true := by decide

theorem witness_PadSumsTheValidBytes : 1 ≤ 7 ∧ 7 ≤ 7 ∧
    ∀ j : Fin 8, j.val < 7 → (#v[1, 2, 3, 4, 5, 6, 7, 0] : Vector Byte 8)[j] = (#v[1, 2, 3, 4, 5, 6, 7, 8] : Vector Byte 8)[j] := by
  decide

theorem witness_NopChangesNothing : 0x01 ≤ (0x0F#8).toNat ∧ (0x0F#8).toNat ≤ 0x0F ∧ State.reset.err = false := by decide

theorem witness_InitStartsContext : failed.err = true ∧ liveZero.err = false ∧
    0x11 ≤ (0x1F#8).toNat ∧ (0x1F#8).toNat ≤ 0x1F ∧ liveZero.errCode = 0 ∧ liveZero.busy = false := by decide

theorem witness_AbsorbMixesAtMostOneWord :
    let s := live (ctxOf lanes0 (Vector.replicate 8 1) 7 7)
    (8#4).toNat ≤ 8 ∧ failed.err = true ∧ State.reset.err = false ∧ State.reset.active = false ∧
      s.err = false ∧ s.active = true ∧ (validBytes s.ctx ++ dataBytes 0 5).length < 8 ∧
      8 ≤ (validBytes s.ctx ++ dataBytes 1 5).length ∧ 0x29 ≤ (0x2F#8).toNat ∧ (0x2F#8).toNat ≤ 0x2F := by decide

theorem witness_FullAbsorbMixesDataItself :
    liveZero.err = false ∧ liveZero.active = true ∧ liveZero.ctx.bufCnt = 0 := by decide

theorem witness_IllFormedAbsorbRaises : 8 < (9#4).toNat ∧ 8 < (15#4).toNat ∧ State.reset.err = false := by decide

theorem witness_FinalizeProducesDigest :
    let s := live (ctxOf lanes0 (Vector.replicate 8 1) 7 7)
    failed.err = true ∧ State.reset.err = false ∧ State.reset.active = false ∧ s.err = false ∧ s.active = true ∧
      0x31 ≤ (0x3F#8).toNat ∧ (0x3F#8).toNat ≤ 0x3F := by decide

theorem witness_ReservedOpcodesRaise : State.reset.err = false ∧ 4 ≤ (0x40#8).toNat / 16 ∧ 4 ≤ (0xFF#8).toNat / 16 := by
  decide

theorem witness_ErrorPriority : failed.err = true ∧ State.reset.err = false ∧
    errorOf State.reset.active 0x4F = some 1 ∧ errorOf State.reset.active 0x29 = some 2 ∧
    errorOf State.reset.active 0x30 = some 3 ∧ errorOf State.reset.active 0x10 = none ∧
    liveZero.err = false ∧ errorOf liveZero.active 0x28 = none := by decide

theorem witness_ErrorIsStickyUntilReset :
    failed.err = true ∧ ({ failed with pending := [.reset] } : State).pending = .reset :: [] := by decide

theorem witness_IllegalByteCountRaises : State.reset.err = false ∧ liveZero.err = false ∧
    illegalByteCount 0x0F = true ∧ illegalByteCount 0x11 = true ∧ illegalByteCount 0x29 = true ∧
    illegalByteCount 0x3F = true ∧ illegalByteCount 0x28 = false := by decide

theorem witness_StepRaisesIllegalByteCount :
    let s : State := { State.reset with pending := [.command ⟨0x2F, 0⟩] }
    s.pending = .command ⟨0x2F, 0⟩ :: [] ∧ s.busy = false ∧ s.err = false ∧ illegalByteCount 0x2F = true ∧
      illegalByteCount 0x01 = true := by decide

theorem witness_StepRunsDecodedInstruction :
    let s : State := { State.reset with pending := [.command ⟨0x10, 5⟩, .reset] }
    s.pending = .command ⟨0x10, 5⟩ :: [.reset] ∧ s.busy = false ∧ decode ⟨0x10, 5⟩ = .ok (.init 5) :=
  ⟨rfl, rfl, rfl⟩

theorem witness_StepWaitsWhenNotReady :
    let s : State := { State.reset with pending := [.command ⟨0x10, 5⟩], busy := true }
    State.reset.pending = [] ∧ s.pending = .command ⟨0x10, 5⟩ :: [] ∧ s.busy = true := by decide

theorem witness_StepAppliesReset :
    ({ liveZero with pending := [.reset], busy := true } : State).pending = .reset :: [] := by decide

theorem witness_StepsFoldOverCommands :
    let s : State := { State.reset with pending := [.command ⟨0x10, 5⟩, .command ⟨0x30, 0⟩, .reset] }
    s.busy = false ∧ s.pending = [⟨0x10, 5⟩, ⟨0x30, 0⟩].map HostInput.command ++ [.reset] := by decide

theorem witness_DigestReadNeedsValid :
    let s : State := { State.reset with digestValid := true }
    s.busy = false ∧ s.digestValid = true ∧ ({ s with busy := true } : State).busy = true ∧
      State.reset.digestValid = false := by decide

/-- INIT changes a lane whatever the constants are, since they are odd. -/
theorem witness_FieldsChangeOnlyByTheirWriters_lane :
    ∃ t, runCommand ⟨0x10, 0⟩ State.reset = .next t ∧ t.ctx.lane ≠ State.reset.ctx.lane := by
  refine ⟨_, rfl, fun h => ?_⟩
  have h0 := congrArg (fun v : Vector Word 4 => v[0].getLsbD 0) h
  have hodd := Config.params.kc_odd 0
  have hz : State.reset.ctx.lane[0].getLsbD 0 = false := by decide
  rw [initCommand_of_noErr (by rfl)] at h0
  simp_all

theorem witness_FieldsChangeOnlyByTheirWriters_buffer :
    let t := stateOf (runCommand ⟨0x21, 0x61⟩ liveZero)
    t.ctx.buf ≠ liveZero.ctx.buf ∧ t.ctx.totalLen ≠ liveZero.ctx.totalLen := by decide

theorem witness_FieldsChangeOnlyByTheirWriters_restart :
    let s := live (ctxOf lanes0 (Vector.replicate 8 0) 0 8)
    (stateOf (runCommand ⟨0x10, 0⟩ s)).ctx.totalLen ≠ s.ctx.totalLen := by decide

/-- With all lanes and the length 0 the digest is 0 for every value of the parameters, so it differs from another. -/
theorem witness_FieldsChangeOnlyByTheirWriters_digest :
    let s : State := { liveZero with digest := Vector.replicate 32 0xFF }
    ∃ t, runCommand ⟨0x30, 0⟩ s = .next t ∧ t.digest ≠ s.digest := by
  refine ⟨_, rfl, fun h => ?_⟩
  have h0 := congrArg (fun v : Vector Byte 32 => v[0]) h
  simp [finalizeCommand, unlessErr, withContext, liveZero, live, State.reset, finalLanes, avalanche_eq, absorbTail,
    rotr, byteOf] at h0

theorem witness_OneDigestPerContext :
    let t := stateOf (runCommand ⟨0x30, 0⟩ liveZero)
    let u := stateOf (runCommand ⟨0x10, 0⟩ State.reset)
    liveZero.digestValid = false ∧ t.digestValid = true ∧ State.reset.active = false ∧ u.active = true ∧
      (stateOf (runCommand ⟨0x00, 0⟩ { State.reset with digestValid := true })).digestValid = true := by decide

/-- The digest clause of OneDigestPerContext is met by the witness of the digest writer above; this is its live state. -/
theorem witness_OneDigestPerContext_live : liveZero.active = true ∧ verdict 0x30 = .finalize := by decide

theorem witness_StepKeepsBlockInv :
    let s : State := { State.reset with pending := [.command ⟨0x10, 5⟩] }
    BlockInv s ∧ Completes (step s) :=
  ⟨⟨by decide, by decide, by decide, by decide, by decide, by decide⟩, ⟨_, rfl⟩⟩

/-- Two states that differ in every field no rule reads. -/
theorem witness_HiddenStateUnobservable :
    let s := State.reset
    let t : State := { State.reset with
      ctx := ctxOf lanes0 (Vector.replicate 8 7) 5 9, digest := Vector.replicate 32 0xAB }
    SameView s t ∧ s ≠ t ∧ Completes (step s) :=
  ⟨⟨rfl, rfl, rfl, rfl, rfl, rfl, (fun h => by cases h), (fun h => by cases h)⟩, by decide, ⟨_, rfl⟩⟩

theorem witness_PartitionIndependence :
    let cs : List Command := [⟨0x23, 0x636261⟩, ⟨0x20, 0⟩, ⟨0x23, 0x666564⟩]
    let ds : List Command := [⟨0x26, 0xFFFF666564636261⟩]
    (∀ c ∈ cs, isAbsorb c = true) ∧ (∀ c ∈ ds, isAbsorb c = true) ∧ streamOf cs = streamOf ds ∧
      liveZero.err = false ∧ liveZero.active = true := by decide

/-- INIT, ABSORB "a", INIT, ABSORB "b": the stream of the second context is "b" (rule R61). -/
theorem test_init_restarts_stream :
    contextInput [⟨0x10, 1⟩, ⟨0x21, 0x61⟩, ⟨0x10, 2⟩, ⟨0x21, 0x62⟩] State.reset ⟨0, []⟩ = ⟨2, [0x62]⟩ := by decide

/-- An ABSORB before INIT raises an error, and what follows is discarded: nothing is absorbed. -/
theorem test_errors_absorb_nothing :
    contextInput [⟨0x21, 0x61⟩, ⟨0x10, 2⟩, ⟨0x21, 0x62⟩] State.reset ⟨0, []⟩ = ⟨0, []⟩ := by decide

/-- The first clause, with a context abandoned before INIT and a NOP between the ABSORBs; then one command for each
cause of the second clause. -/
theorem witness_AcceptedStreamSinceInit :
    (∃ m, runCommands [⟨0x10, 1⟩, ⟨0x21, 0x61⟩] State.reset = .next m ∧ m.err = false) ∧
    (∀ c ∈ ([⟨0x21, 0x62⟩, ⟨0x00, 5⟩, ⟨0x22, 0x6463⟩] : List Command), isAbsorb c = true ∨ c.cmd = 0x00) ∧
    (∃ m, runCommands [⟨0x40, 0⟩] State.reset = .next m ∧ m.err = true) ∧
    runCommands [] State.reset = .next State.reset ∧ State.reset.active = false ∧ isAbsorb ⟨0x28, 0⟩ = true ∧
    verdict 0x30 = .finalize ∧ 4 ≤ (0x40#8).toNat / 16 ∧ illegalByteCount 0x29 = true :=
  ⟨⟨_, rfl, rfl⟩, by decide, ⟨_, rfl, rfl⟩, rfl, by decide, by decide, by decide, by decide, by decide⟩

/-- A live context, and a digest still valid after a command in error. -/
theorem witness_EveryDigestIsOfTheAcceptedStream :
    State.reset.active = false ∧ State.reset.digestValid = false ∧
    (∃ t, runCommands [⟨0x10, 1⟩, ⟨0x21, 0x61⟩] State.reset = .next t ∧ t.active = true) ∧
    (∃ t, runCommands [⟨0x10, 1⟩, ⟨0x30, 0⟩, ⟨0x21, 0x61⟩] State.reset = .next t ∧ t.digestValid = true) :=
  ⟨rfl, rfl, ⟨_, rfl, rfl⟩, ⟨_, rfl, rfl⟩⟩

theorem witness_StreamClosedForm :
    (∀ c ∈ ([⟨0x25, 0x6564636261⟩, ⟨0x24, 0x69686766⟩] : List Command), isAbsorb c = true) ∧
      State.reset.err = false := by decide

theorem witness_DigestOfSeedAndStream :
    (∀ c ∈ ([⟨0x28, 0x6867666564636261⟩, ⟨0x21, 0x69⟩] : List Command), isAbsorb c = true) ∧
      liveZero.err = false ∧ liveZero.busy = false := by decide

theorem witness_OneShotHashDigest : State.reset.err = false ∧ State.reset.busy = false ∧
    (∀ c ∈ ([⟨0x21, 0x61⟩, ⟨0x21, 0x62⟩] : List Command), isAbsorb c = true) ∧
    streamOf [⟨0x21, 0x61⟩, ⟨0x21, 0x62⟩] = [0x61, 0x62] := by decide

theorem witness_DigestLaneIndependence :
    tcA.kc 0 = tcB.kc 0 ∧ tcA.wrot 0 = tcB.wrot 0 ∧ tcA.wrot 1 ≠ tcB.wrot 1 := by decide

theorem witness_PaddingAmbiguityIsKept :
    ([0x61] : List Byte).length % 8 ≠ 0 ∧ ([1, 2, 3, 4, 5, 6, 7] : List Byte).length % 8 ≠ 0 := by decide

theorem witness_EdgeKeepsClockInv :
    ClockInv ClockState.reset ∧
      tick ⟨3, 1, 1, by decide⟩ ⟨true, true, ⟨0x10, 0⟩⟩ ClockState.reset =
        .next ⟨State.reset.setBusy true, some ⟨⟨0x10, 0⟩, 2⟩, none⟩ :=
  ⟨⟨rfl, by decide⟩, rfl⟩

theorem witness_CommandCompletesAtItsLatency :
    let T : Latencies := ⟨1, 2, 5, by decide⟩
    let p : Pins := ⟨true, true, ⟨0x30, 0⟩⟩
    let q : Pins := ⟨true, true, ⟨0x10, 1⟩⟩
    ClockInv ClockState.reset ∧ ClockState.reset.inFlight = none ∧
      keepsHandshake ClockState.reset.heldOff p = true ∧ p.rstN = true ∧ p.cmdValid = true ∧ q.rstN = true ∧
      0 + 1 < latencyOf T p.command ∧ 3 + 1 < latencyOf T p.command :=
  ⟨⟨rfl, by decide⟩, rfl, rfl, rfl, rfl, rfl, by decide, by decide⟩

theorem witness_ResetEdgeAbandonsCommand : (⟨false, true, ⟨0x10, 0⟩⟩ : Pins).rstN = false := by decide

theorem witness_BrokenHandshakeIsRefused :
    let k : ClockState := ⟨State.reset.setBusy true, some ⟨⟨0x30, 0⟩, 2⟩, some ⟨0x10, 1⟩⟩
    let p : Pins := ⟨true, true, ⟨0x10, 2⟩⟩
    p.rstN = true ∧ k.heldOff = some ⟨0x10, 1⟩ ∧ (⟨true, false, ⟨0x10, 1⟩⟩ : Pins).cmdValid = false ∧
      p.command ≠ ⟨0x10, 1⟩ := by decide

theorem witness_AssembledLinesAreWellFormed :
    assembleLine (.absorb 8 0xFFFFFFFFFFFFFFFF) = some [.absorb 8 0xFFFFFFFFFFFFFFFF] ∧
      assembleLine (.absorb 0 0) = some [.absorb 0 0] := by decide

end Sys2Proof.Tests
end

section
/-! The bits of a rotated word (00_scope.md rules R14 and R8). -/

namespace Sys2Proof.Machine

/-- A rotation by a whole number of turns is the word itself: both shifts of rule R14 are then by 0. -/
@[simp] theorem rotr_zero (a : Word) : rotr a 0 = a := by
  simp [rotr]

/-- The right shift gives the bits below `64 - n` and the left shift the `n` bits above, so each bit comes from one of
the two; for `n = 0` rule R14 shifts left by `64 mod 64`, and both shifts give the bit. -/
theorem getLsbD_rotr (a : Word) {n i : Nat} (hn : n < 64) (hi : i < 64) :
    (rotr a n).getLsbD i = a.getLsbD ((i + n) % 64) := by
  obtain rfl | hpos := Nat.eq_zero_or_pos n
  · rw [rotr_zero, Nat.add_zero, Nat.mod_eq_of_lt hi]
  have hback : (64 - n) % 64 = 64 - n := Nat.mod_eq_of_lt (by omega)
  have hbits : (rotr a n).getLsbD i =
      (a.getLsbD (n + i) || (!decide (i < 64 - n) && a.getLsbD (i - (64 - n)))) := by
    simp only [rotr, hback, BitVec.getLsbD_or, BitVec.getLsbD_ushiftRight, BitVec.getLsbD_shiftLeft, hi, decide_true,
      Bool.true_and]
  rw [hbits]
  by_cases hlow : i < 64 - n
  · have hplace : (i + n) % 64 = n + i := by omega
    simp [hlow, hplace]
  · have hplace : (i + n) % 64 = i - (64 - n) := by omega
    have hout : a.getLsbD (n + i) = false := BitVec.getLsbD_of_ge a (n + i) (by omega)
    simp [hlow, hplace, hout]

/-- Bit `i` of a left rotation by `r` is bit `i - r` around the word, which is bit `i + (64 - r)`. -/
theorem rotateLeft_eq_rotr (a : Word) {r : Nat} (hr : r < 64) : a.rotateLeft r = rotr a ((64 - r) % 64) := by
  apply BitVec.eq_of_getLsbD_eq
  intro i hi
  rw [getLsbD_rotr a (Nat.mod_lt _ (by decide)) hi, BitVec.getLsbD_rotateLeft_of_le hr]
  by_cases hlow : i < r
  · have hplace : (i + (64 - r) % 64) % 64 = 64 - r + i := by omega
    simp [hlow, hplace]
  · have hplace : (i + (64 - r) % 64) % 64 = i - r := by omega
    simp [hlow, hi, hplace]

/-- Settles O8: the bits by the two shifts of rule R14, the left rotation by comparing the two rotations bit by bit. -/
theorem rotrMovesBitsAround : Obligations.RotrMovesBitsAround :=
  ⟨fun a _ _ hn hi => getLsbD_rotr a hn hi, fun a _ hr => rotateLeft_eq_rotr a hr⟩

end Sys2Proof.Machine
end

section
/-! Reading the block: the bits of `STATUS`, the digest read and the values after reset (10_state.md rules R37, R41,
R47). -/

namespace Sys2Proof.Machine

/-- Settles O31: each field of the reset record, and `STATUS` computed from them. -/
theorem resetValues : Obligations.ResetValues :=
  ⟨rfl, rfl, rfl, rfl, rfl, rfl, rfl, by decide⟩

/-- `STATUS` bit by bit: the four flags, `ERR_CODE` from bit 4, and nothing above it (rule R41). -/
theorem statusWord_getLsbD (s : State) (i : Nat) :
    (statusWord s).getLsbD i =
      if i = 0 then s.active else if i = 1 then s.digestValid else if i = 2 then s.err else if i = 3 then s.busy
      else s.errCode.getLsbD (i - 4) := by
  simp only [statusWord, BitVec.getLsbD_append]
  match i with
  | 0 => simp
  | 1 => simp
  | 2 => simp
  | 3 => simp
  | i + 4 =>
    by_cases hi : i < 4
    · simp [hi]
    · simp [hi, BitVec.getLsbD_of_ge s.errCode i (Nat.not_lt.mp hi)]

theorem statusWord_errCode (s : State) : (statusWord s).extractLsb' 4 4 = s.errCode := by
  apply BitVec.eq_of_getLsbD_eq
  intro i hi
  rw [BitVec.getLsbD_extractLsb', statusWord_getLsbD, Nat.add_comm]
  simp [hi]

theorem statusWord_reserved (s : State) : (statusWord s).extractLsb' 8 8 = 0#8 := by
  apply BitVec.eq_of_getLsbD_eq
  intro i hi
  have hplace : 8 + i = (i + 4) + 4 := by omega
  rw [BitVec.getLsbD_extractLsb', statusWord_getLsbD, hplace]
  simp

/-- Settles O32: the flags are single bits, and the two groups of bits above them are read off bit by bit. -/
theorem statusLayout : Obligations.StatusLayout :=
  fun s => ⟨statusWord_getLsbD s 0, statusWord_getLsbD s 1, statusWord_getLsbD s 2, statusWord_getLsbD s 3,
    statusWord_errCode s, statusWord_reserved s⟩

/-- Settles O34: the two clauses are the two branches of the read's gate. -/
theorem digestReadNeedsValid : Obligations.DigestReadNeedsValid := by
  intro s
  constructor
  · intro hbusy hvalid
    simp [readDigest, hbusy, hvalid]
  · rintro (hbusy | hinvalid)
    · simp [readDigest, hbusy]
    · simp [readDigest, hinvalid]

end Sys2Proof.Machine
end

section
/-! Everything that one transferred command and one step can make of the block (70_reset_and_hazards.md rules R194 to
R196), in one place. -/

namespace Sys2Proof.Machine

/-- `CommandEffect c s t`: the transition of rule R196 may take `s` to `t` under `c`. A command is discarded or has no
effect, raises an error, or is an INIT, ABSORB or FINALIZE that takes effect. -/
inductive CommandEffect (c : Command) (s : State) : State → Prop
  | unchanged (h : s.err = true ∨ verdict c.cmd = .nop) : CommandEffect c s s
  | raised (code : ErrCode) (herr : s.err = false) : CommandEffect c s (s.setErr true (errCodeBits code))
  | started (hv : verdict c.cmd = .init) (herr : s.err = false) :
    CommandEffect c s
      ((s.setCtx (((s.ctx.setLane (laneInit Config.params c.data)).setBuffer s.ctx.buf 0).setTotalLen 0)).setLife
        true false)
  | absorbed (nb : BitVec 4) (hv : verdict c.cmd = .absorb nb) (herr : s.err = false) (hact : s.active = true) :
    CommandEffect c s (s.setCtx (absorbContext Config.params nb c.data s.ctx))
  | finalized (hv : verdict c.cmd = .finalize) (herr : s.err = false) (hact : s.active = true) :
    CommandEffect c s
      (((s.setCtx ((s.ctx.setLane (finalLanes Config.params s.ctx)).setBuffer s.ctx.buf 0)).setDigest
        (serialize (finalLanes Config.params s.ctx))).setLife false true)

/-- The transition of one transferred command as a function of the block: the meaning the decoder's verdict names. -/
def commandTransition (c : Command) : State → State :=
  match verdict c.cmd with
  | .nop => id
  | .init => initCommand Config.params c.data
  | .absorb nb => absorbCommand Config.params nb c.data
  | .finalize => finalizeCommand Config.params
  | .illegal code => raiseErr code

/-- Every transferred command completes (rule R196). -/
theorem runCommand_eq_transition (c : Command) (s : State) : runCommand c s = .next (commandTransition c s) := by
  rw [runCommand_verdict, commandTransition]
  cases verdict c.cmd <;> rfl

/-- The case analysis of the transition: by the verdict, then by the cases of the command it names. -/
theorem commandEffect_transition (c : Command) (s : State) : CommandEffect c s (commandTransition c s) := by
  unfold commandTransition
  cases hv : verdict c.cmd with
  | nop => exact .unchanged (.inr hv)
  | init =>
    show CommandEffect c s (initCommand Config.params c.data s)
    cases herr : s.err with
    | false =>
      rw [initCommand_of_noErr herr]
      exact .started hv herr
    | true =>
      rw [initCommand, unlessErr_of_err herr]
      exact .unchanged (.inl herr)
  | absorb nb =>
    show CommandEffect c s (absorbCommand Config.params nb c.data s)
    obtain ⟨herr, e⟩ | ⟨herr, _, e⟩ | ⟨herr, _, _, e⟩ | ⟨herr, _, hact, e⟩ :=
      absorbCommand_cases Config.params nb c.data s <;> rw [e]
    · exact .unchanged (.inl herr)
    · exact .raised .illegalNb herr
    · exact .raised .noContext herr
    · exact .absorbed nb hv herr hact
  | finalize =>
    show CommandEffect c s (finalizeCommand Config.params s)
    obtain ⟨herr, e⟩ | ⟨herr, _, e⟩ | ⟨herr, hact, e⟩ := finalizeCommand_cases Config.params s <;> rw [e]
    · exact .unchanged (.inl herr)
    · exact .raised .noContext herr
    · exact .finalized hv herr hact
  | illegal code =>
    show CommandEffect c s (raiseErr code s)
    obtain ⟨herr, e⟩ | ⟨herr, e⟩ := raiseErr_cases code s <;> rw [e]
    · exact .unchanged (.inl herr)
    · exact .raised code herr

theorem commandEffect_of_runCommand {c : Command} {s t : State} (h : runCommand c s = .next t) :
    CommandEffect c s t := by
  rw [runCommand_eq_transition] at h
  cases h
  exact commandEffect_transition c s

theorem runCommand_busy {c : Command} {s t : State} (h : runCommand c s = .next t) : t.busy = s.busy := by
  cases commandEffect_of_runCommand h <;> rfl

theorem runCommand_pending {c : Command} {s t : State} (h : runCommand c s = .next t) : t.pending = s.pending := by
  cases commandEffect_of_runCommand h <;> rfl

theorem step_of_noInput {s : State} (hp : s.pending = []) : step s = .next s := by
  simp [step, transferNext, hp]

theorem step_of_reset {s : State} {rest : List HostInput} (hp : s.pending = .reset :: rest) :
    step s = .next (resetBlock (s.setPending rest)) := by
  simp [step, transferNext, hp]

theorem step_of_waiting {s : State} {c : Command} {rest : List HostInput} (hp : s.pending = .command c :: rest)
    (hbusy : s.busy = true) : step s = .next s := by
  simp [step, transferNext, hp, cmdReady, hbusy]

theorem step_of_transfer {s : State} {c : Command} {rest : List HostInput} (hp : s.pending = .command c :: rest)
    (hbusy : s.busy = false) : step s = runCommand c (s.setPending rest) := by
  simp [step, transferNext, hp, cmdReady, hbusy]

@[simp] theorem absorbContext_totalLen (P : Params) (nb : BitVec 4) (data : Word) (k : Context) :
    (absorbContext P nb data k).totalLen = k.totalLen + nb.setWidth 64 := by
  simp [absorbContext]

theorem absorbContext_bufCnt (P : Params) (nb : BitVec 4) (data : Word) (k : Context) :
    (absorbContext P nb data k).bufCnt.toNat = (k.bufCnt.toNat + nb.toNat) % 8 := by
  simp [absorbContext, absorbBytes_bufCnt]

end Sys2Proof.Machine
end

section
/-! The invariants at command boundaries (10_state.md rule R48) and which command writes which field (rules R31 to
R36). -/

namespace Sys2Proof.Machine

/-- Rule R171: the codes that are raised are 1 to 3. -/
theorem errCodeBits_range (code : ErrCode) : 1 ≤ (errCodeBits code).toNat ∧ (errCodeBits code).toNat ≤ 3 := by
  cases code <;> decide

/-- Settles O37: nothing is live and no error stands after reset. -/
theorem resetMeetsBlockInv : Obligations.ResetMeetsBlockInv where
  bufCnt_le := by decide
  no_err _ := rfl
  err_code h := nomatch h
  active_no_digest _ := rfl
  not_busy := rfl
  len_mod h := nomatch h

/-- No invariant of rule R48 reads the host's inputs. -/
theorem blockInv_setPending {s : State} (h : BlockInv s) (p : List HostInput) : BlockInv (s.setPending p) :=
  ⟨h.bufCnt_le, h.no_err, h.err_code, h.active_no_digest, h.not_busy, h.len_mod⟩

/-- The length and the count grow by the same bytes. The length wraps at 2^64, a multiple of 8, so it keeps its
remainder (part (e) of rule R48). -/
theorem absorbContext_len_mod (P : Params) (nb : BitVec 4) (data : Word) {k : Context}
    (h : k.totalLen.toNat % 8 = k.bufCnt.toNat) :
    (absorbContext P nb data k).totalLen.toNat % 8 = (absorbContext P nb data k).bufCnt.toNat := by
  have hnb : nb.toNat < 16 := nb.isLt
  rw [absorbContext_bufCnt, absorbContext_totalLen, BitVec.toNat_add, BitVec.toNat_setWidth]
  omega

/-- The count has three bits, so part (a) of rule R48 holds by its width. -/
theorem bufCnt_le_seven (k : Context) : k.bufCnt.toNat ≤ 7 := by
  have := k.bufCnt.isLt
  omega

/-- Every transferred command keeps the invariants of rule R48. -/
theorem runCommand_blockInv {c : Command} {s t : State} (h : BlockInv s) (hrun : runCommand c s = .next t) :
    BlockInv t := by
  obtain ⟨_, hno, hcode, hdigest, hbusy, hlen⟩ := h
  cases commandEffect_of_runCommand hrun with
  | unchanged _ => exact ⟨bufCnt_le_seven _, hno, hcode, hdigest, hbusy, hlen⟩
  | raised code _ =>
    exact ⟨bufCnt_le_seven _, (fun h => nomatch h), fun _ => errCodeBits_range code, hdigest, hbusy, hlen⟩
  | started _ _ => exact ⟨bufCnt_le_seven _, hno, hcode, fun _ => rfl, hbusy, fun _ => rfl⟩
  | absorbed nb _ _ _ =>
    exact ⟨bufCnt_le_seven _, hno, hcode, hdigest, hbusy, fun hact => absorbContext_len_mod _ nb _ (hlen hact)⟩
  | finalized _ _ _ => exact ⟨bufCnt_le_seven _, hno, hcode, (fun h => nomatch h), hbusy, fun h => nomatch h⟩

/-- Settles O38: with `BUSY = 0` a step is nothing, a reset or a transferred command, and each keeps the invariants. -/
theorem stepKeepsBlockInv : Obligations.StepKeepsBlockInv := by
  intro s t h hstep
  cases hp : s.pending with
  | nil =>
    rw [step_of_noInput hp] at hstep
    cases hstep
    exact h
  | cons input rest =>
    cases input with
    | reset =>
      rw [step_of_reset hp] at hstep
      cases hstep
      exact blockInv_setPending resetMeetsBlockInv _
    | command c =>
      rw [step_of_transfer hp h.not_busy] at hstep
      exact runCommand_blockInv (blockInv_setPending h rest) hstep

/-- Settles O35: each effect of a command writes the fields of its own command only. -/
theorem fieldsChangeOnlyByTheirWriters : Obligations.FieldsChangeOnlyByTheirWriters := by
  intro c s t hrun
  cases commandEffect_of_runCommand hrun with
  | unchanged _ => simp
  | raised _ _ => simp
  | started hv _ => simp [hv]
  | absorbed nb hv _ hact => simp [hv, hact]
  | finalized hv _ hact => simp [hv, hact]

end Sys2Proof.Machine
end

section
/-! What the spec leaves open is never observed (10_state.md rules R32, R37, R45 to R47): the relation `SameView` is a
bisimulation of the step, and `STATUS` and the digest read are functions of its classes. -/

namespace Sys2Proof.Machine

/-- Contexts are the same but for stale bytes when they have the same valid bytes; the count is how many there are. -/
theorem sameContext_iff {a b : Context} :
    SameContext a b ↔ a.lane = b.lane ∧ a.totalLen = b.totalLen ∧ validBytes a = validBytes b := by
  constructor
  · rintro ⟨hlane, hcnt, hlen, hbytes⟩
    refine ⟨hlane, hlen, List.ext_getElem? fun j => ?_⟩
    by_cases hj : j < a.bufCnt.toNat
    · rw [validBytes_getElem? a j hj, validBytes_getElem? b j (hcnt ▸ hj)]
      exact congrArg some (hbytes ⟨j, by have := a.bufCnt.isLt; omega⟩ hj)
    · rw [List.getElem?_eq_none (by rw [validBytes_length]; omega),
        List.getElem?_eq_none (by rw [validBytes_length, ← hcnt]; omega)]
  · rintro ⟨hlane, hlen, hbytes⟩
    have hcnt : a.bufCnt = b.bufCnt := by
      apply BitVec.eq_of_toNat_eq
      rw [← validBytes_length, hbytes, validBytes_length]
    refine ⟨hlane, hcnt, hlen, fun j hj => Option.some.inj ?_⟩
    calc some a.buf[j] = (validBytes a)[j.val]? := (validBytes_getElem? a j hj).symm
      _ = (validBytes b)[j.val]? := by rw [hbytes]
      _ = some b.buf[j] := validBytes_getElem? b j (hcnt ▸ hj)

/-- The byte step reads the valid bytes of the buffer only. -/
theorem absorbByte_sameContext (P : Params) (x : Byte) {a b : Context} (h : SameContext a b) :
    SameContext (absorbByte P a x) (absorbByte P b x) := by
  have hcnt := congrArg BitVec.toNat h.bufCnt
  obtain ⟨hlane, hlen, hbytes⟩ := sameContext_iff.mp h
  rw [sameContext_iff, absorbByte_totalLen, absorbByte_totalLen]
  obtain ⟨ha, hva, hla⟩ | ⟨ha, hva, hla⟩ := absorbByte_valid P a x <;>
    obtain ⟨hb, hvb, hlb⟩ | ⟨hb, hvb, hlb⟩ := absorbByte_valid P b x
  · exact ⟨by rw [hla, hlb, hlane], hlen, by rw [hva, hvb, hbytes]⟩
  · omega
  · omega
  · exact ⟨by rw [hla, hlb, hlane, hbytes], hlen, by rw [hva, hvb]⟩

theorem absorbBytes_sameContext (P : Params) (bs : List Byte) {a b : Context} (h : SameContext a b) :
    SameContext (absorbBytes P bs a) (absorbBytes P bs b) := by
  induction bs generalizing a b with
  | nil => exact h
  | cons x bs ih => exact ih (absorbByte_sameContext P x h)

theorem absorbContext_sameContext (P : Params) (nb : BitVec 4) (data : Word) {a b : Context} (h : SameContext a b) :
    SameContext (absorbContext P nb data a) (absorbContext P nb data b) := by
  apply absorbBytes_sameContext
  rw [h.totalLen]
  exact ⟨h.lane, h.bufCnt, rfl, h.valid_bytes⟩

/-- Padding reads the bytes below the count only (41_finalizer.md rule R141). -/
theorem pad_congr {a b : Vector Byte 8} {n : Nat} (h : ∀ j : Fin 8, j.val < n → a[j] = b[j]) :
    pad a n = pad b n := by
  unfold pad
  congr 2
  funext j
  by_cases hj : j.val < n
  · simp only [hj, if_true, h j hj]
  · simp only [hj, if_false]

/-- The finalizer cannot tell the two contexts apart (rule R45). -/
theorem finalLanes_sameContext (P : Params) {a b : Context} (h : SameContext a b) :
    finalLanes P a = finalLanes P b := by
  have htail : absorbTail P a = absorbTail P b := by
    simp only [absorbTail, ← h.bufCnt, ← h.lane, pad_congr h.valid_bytes]
  rw [finalLanes, finalLanes, htail, h.totalLen]

theorem sameView_refl (s : State) : SameView s s :=
  ⟨rfl, rfl, rfl, rfl, rfl, rfl, fun _ => ⟨rfl, rfl, rfl, fun _ _ => rfl⟩, fun _ => rfl⟩

theorem setPending_sameView {s t : State} (h : SameView s t) (p : List HostInput) :
    SameView (s.setPending p) (t.setPending p) :=
  ⟨h.active, h.digestValid, h.err, h.errCode, h.busy, rfl, h.ctx, h.digest⟩

theorem setErr_sameView {s t : State} (h : SameView s t) (e : Bool) (code : BitVec 4) :
    SameView (s.setErr e code) (t.setErr e code) :=
  ⟨h.active, h.digestValid, rfl, rfl, h.busy, h.pending, h.ctx, h.digest⟩

theorem unlessErr_sameView {f : State → State} {s t : State} (h : SameView s t) (hf : SameView (f s) (f t)) :
    SameView (unlessErr f s) (unlessErr f t) := by
  cases herr : s.err with
  | true => rwa [unlessErr_of_err herr, unlessErr_of_err (h.err ▸ herr)]
  | false => rwa [unlessErr_of_noErr herr, unlessErr_of_noErr (h.err ▸ herr)]

theorem raiseErr_sameView {s t : State} (h : SameView s t) (code : ErrCode) :
    SameView (raiseErr code s) (raiseErr code t) :=
  unlessErr_sameView (f := fun s => s.setErr true (errCodeBits code)) h (setErr_sameView h true (errCodeBits code))

theorem withContext_sameView {f : State → State} {s t : State} (h : SameView s t)
    (hf : s.active = true → SameView (f s) (f t)) : SameView (withContext f s) (withContext f t) := by
  cases hact : s.active with
  | true =>
    rw [withContext_of_active hact, withContext_of_active (h.active ▸ hact)]
    exact hf hact
  | false =>
    rw [withContext_of_inactive hact, withContext_of_inactive (h.active ▸ hact)]
    exact raiseErr_sameView h .noContext

/-- INIT overwrites what a context that is not live may differ in, and withdraws the digest. -/
theorem initCommand_sameView (P : Params) (seed : Word) {s t : State} (h : SameView s t) :
    SameView (initCommand P seed s) (initCommand P seed t) :=
  unlessErr_sameView h
    ⟨rfl, rfl, h.err, h.errCode, h.busy, h.pending,
      fun _ => ⟨rfl, rfl, rfl, fun _ hj => absurd hj (Nat.not_lt_zero _)⟩, fun hv => nomatch hv⟩

theorem absorbCommand_sameView (P : Params) (nb : BitVec 4) (data : Word) {s t : State} (h : SameView s t) :
    SameView (absorbCommand P nb data s) (absorbCommand P nb data t) := by
  refine unlessErr_sameView h ?_
  by_cases hnb : nb.toNat ≤ 8
  · simp only [hnb, if_true]
    refine withContext_sameView h fun hact => ?_
    exact ⟨h.active, h.digestValid, h.err, h.errCode, h.busy, h.pending,
      fun _ => absorbContext_sameContext P nb data (h.ctx hact), h.digest⟩
  · simp only [hnb, if_false]
    exact raiseErr_sameView h .illegalNb

/-- FINALIZE writes a digest that is the same for both, and leaves no live context. -/
theorem finalizeCommand_sameView (P : Params) {s t : State} (h : SameView s t) :
    SameView (finalizeCommand P s) (finalizeCommand P t) :=
  unlessErr_sameView h <| withContext_sameView h fun hact =>
    ⟨rfl, rfl, h.err, h.errCode, h.busy, h.pending, (fun hlive => nomatch hlive),
      fun _ => congrArg serialize (finalLanes_sameContext P (h.ctx hact))⟩

/-- One transferred command keeps two states indistinguishable. -/
theorem commandTransition_sameView (c : Command) {s t : State} (h : SameView s t) :
    SameView (commandTransition c s) (commandTransition c t) := by
  unfold commandTransition
  cases verdict c.cmd with
  | nop => exact h
  | init => exact initCommand_sameView _ _ h
  | absorb nb => exact absorbCommand_sameView _ nb _ h
  | finalize => exact finalizeCommand_sameView _ h
  | illegal code => exact raiseErr_sameView h code

/-- The host presents the same inputs to both, and `cmd_ready` agrees, so both steps do the same kind of thing. -/
theorem step_sameView {s t s' : State} (h : SameView s t) (hstep : step s = .next s') :
    ∃ t', step t = .next t' ∧ SameView s' t' := by
  cases hp : s.pending with
  | nil =>
    rw [step_of_noInput hp] at hstep
    cases hstep
    exact ⟨t, step_of_noInput (h.pending ▸ hp), h⟩
  | cons input rest =>
    have hpt : t.pending = input :: rest := h.pending ▸ hp
    cases input with
    | reset =>
      rw [step_of_reset hp] at hstep
      cases hstep
      exact ⟨_, step_of_reset hpt, sameView_refl _⟩
    | command c =>
      cases hbusy : s.busy with
      | true =>
        rw [step_of_waiting hp hbusy] at hstep
        cases hstep
        exact ⟨t, step_of_waiting hpt (h.busy ▸ hbusy), h⟩
      | false =>
        rw [step_of_transfer hp hbusy, runCommand_eq_transition] at hstep
        rw [step_of_transfer hpt (h.busy ▸ hbusy), runCommand_eq_transition]
        cases hstep
        exact ⟨_, rfl, commandTransition_sameView c (setPending_sameView h rest)⟩

theorem statusWord_sameView {s t : State} (h : SameView s t) : statusWord s = statusWord t := by
  simp only [statusWord, h.errCode, h.busy, h.err, h.digestValid, h.active]

/-- The digest read shows the digest bytes only where they are the same. -/
theorem readDigest_sameView {s t : State} (h : SameView s t) : readDigest s = readDigest t := by
  cases hvalid : s.digestValid with
  | true => simp only [readDigest, ← h.busy, ← h.digestValid, h.digest hvalid]
  | false => simp [readDigest, ← h.digestValid, hvalid]

/-- Settles O39: the two reads agree, and the relation is a bisimulation of the step. -/
theorem hiddenStateUnobservable : Obligations.HiddenStateUnobservable :=
  fun _ _ h => ⟨statusWord_sameView h, readDigest_sameView h, fun _ => step_sameView h⟩

end Sys2Proof.Machine
end

section
/-! `BUSY` at the pins (10_state.md rule R39, 70_reset_and_hazards.md rule R197): it is 1 exactly while a command is in
progress. -/

namespace Sys2Proof.Machine

/-- With no command in progress, the clocked invariant says that `BUSY = 0`. -/
theorem clockInv_idle_iff {b : State} {held : Option Command} : ClockInv ⟨b, none, held⟩ ↔ b.busy = false :=
  ⟨fun h => h.busy_iff, fun h => ⟨h, fun _ hf => nomatch hf⟩⟩

/-- With a command in progress, it says that `BUSY = 1` and that an edge remains. -/
theorem clockInv_busy_iff {b : State} {f : InFlight} {held : Option Command} :
    ClockInv ⟨b, some f, held⟩ ↔ b.busy = true ∧ 1 ≤ f.remaining := by
  constructor
  · exact fun h => ⟨h.busy_iff, h.remaining_pos f rfl⟩
  · rintro ⟨hbusy, hpos⟩
    exact ⟨hbusy, fun _ hf => Option.some.inj hf ▸ hpos⟩

/-- The completion edge lets `BUSY` fall and leaves no command in progress; no command raises `BUSY` again. -/
theorem complete_clockInv {c : Command} {b : State} {held : Option Command} {k : ClockState}
    (h : complete c b held = .next k) : ClockInv k := by
  have hrun := runCommand_eq_transition c (b.setBusy false)
  rw [complete_next hrun] at h
  cases h
  exact clockInv_idle_iff.mpr (runCommand_busy hrun)

theorem tickIdle_clockInv {T : Latencies} {p : Pins} {b : State} {k : ClockState} (hb : b.busy = false)
    (h : tickIdle T p b = .next k) : ClockInv k := by
  unfold tickIdle at h
  split at h
  next =>
    cases h
    exact clockInv_idle_iff.mpr hb
  next c _ =>
    split at h
    next => exact complete_clockInv h
    next hlat =>
      cases h
      exact clockInv_busy_iff.mpr ⟨rfl, Nat.le_sub_one_of_lt (Nat.not_le.mp hlat)⟩

theorem tickBusy_clockInv {f : InFlight} {p : Pins} {b : State} {k : ClockState} (hb : b.busy = true)
    (h : tickBusy f p b = .next k) : ClockInv k := by
  by_cases hlast : f.remaining ≤ 1
  · rw [tickBusy_completes hlast] at h
    exact complete_clockInv h
  · have hmore := Nat.not_le.mp hlast
    rw [tickBusy_waits hmore] at h
    cases h
    exact clockInv_busy_iff.mpr ⟨hb, Nat.le_sub_one_of_lt hmore⟩

/-- An edge that goes on was a reset, or the host kept the handshake (rule R194). -/
theorem keepsHandshake_of_tick {T : Latencies} {p : Pins} {k k' : ClockState} (hr : p.rstN = true)
    (h : tick T p k = .next k') : keepsHandshake k.heldOff p = true := by
  cases hk : keepsHandshake k.heldOff p with
  | true => rfl
  | false => simp [tick, hr, hk] at h

/-- Settles O49: by what the edge is, a reset, one with no command in progress, or one with a command in progress. -/
theorem edgeKeepsClockInv : Obligations.EdgeKeepsClockInv := by
  intro T p k k' hinv h
  cases hr : p.rstN with
  | false =>
    rw [tick_of_reset T hr] at h
    cases h
    exact clockInv_idle_iff.mpr rfl
  | true =>
    have hk := keepsHandshake_of_tick hr h
    cases hf : k.inFlight with
    | none =>
      rw [tick_of_idle T hr hk hf] at h
      exact tickIdle_clockInv (by rw [hinv.busy_iff, hf]; rfl) h
    | some f =>
      rw [tick_of_busy T hr hk hf] at h
      exact tickBusy_clockInv (by rw [hinv.busy_iff, hf]; rfl) h

end Sys2Proof.Machine
end

section
/-! The fields of the command byte and the verdict they give (30_encoding.md rules R80, R82, R85 and R86). -/

namespace Sys2Proof.Machine

theorem opcField_toNat (cmd : BitVec 8) : (opcField cmd).toNat = cmd.toNat / 16 := by
  have := cmd.isLt
  simp [opcField, BitVec.extractLsb'_toNat, Nat.shiftRight_eq_div_pow]
  omega

theorem nbField_toNat (cmd : BitVec 8) : (nbField cmd).toNat = cmd.toNat % 16 := by
  simp [nbField, BitVec.extractLsb'_toNat]

theorem opcField_eq_iff (cmd : BitVec 8) (n : BitVec 4) : opcField cmd = n ↔ cmd.toNat / 16 = n.toNat := by
  rw [← BitVec.toNat_inj, opcField_toNat]

theorem verdict_of_reserved {cmd : BitVec 8} (h : 4 ≤ cmd.toNat / 16) : verdict cmd = .illegal .illegalOpc := by
  have hopc : opcField cmd ≥ 4#4 := by
    rw [ge_iff_le, BitVec.le_def, opcField_toNat]
    exact h
  simp only [verdict, hopc, if_true]

/-- Below the reserved opcodes the first check of rule R86 passes. -/
theorem opcField_assigned {cmd : BitVec 8} (h : cmd.toNat / 16 < 4) : ¬ opcField cmd ≥ 4#4 := by
  rw [ge_iff_le, BitVec.le_def, opcField_toNat]
  exact Nat.not_le.mpr h

theorem verdict_of_illegalByteCount {cmd : BitVec 8} (h : illegalByteCount cmd = true) :
    verdict cmd = .illegal .illegalNb := by
  rw [illegalByteCount, decide_eq_true_eq] at h
  obtain ⟨hopc, hnb⟩ | ⟨hlt, hopc, hnb⟩ := h
  · have hcount : nbField cmd > 8#4 := by
      rw [gt_iff_lt, BitVec.lt_def, nbField_toNat]
      exact hnb
    simp only [verdict, (opcField_eq_iff cmd 2).mpr hopc, hcount]
    rfl
  · have hopc2 : ¬ opcField cmd = 2#4 := fun e => hopc ((opcField_eq_iff cmd 2).mp e)
    have hcount : nbField cmd ≠ 0#4 := by
      rw [ne_eq, ← BitVec.toNat_inj, nbField_toNat]
      exact hnb
    simp [verdict, opcField_assigned hlt, hopc2, hcount]

theorem verdict_of_isAbsorb {c : Command} (h : isAbsorb c = true) : verdict c.cmd = .absorb (nbField c.cmd) := by
  rw [isAbsorb, decide_eq_true_eq] at h
  obtain ⟨hopc, hnb⟩ := h
  have hcount : ¬ nbField c.cmd > 8#4 := by
    rw [gt_iff_lt, BitVec.lt_def, nbField_toNat]
    exact Nat.not_lt.mpr hnb
  simp [verdict, (opcField_eq_iff c.cmd 2).mpr hopc, hcount]

end Sys2Proof.Machine
end

section
/-! What a context has made of its seed and its stream (40_hash_core.md rule R121), one absorbed byte at a time. -/

namespace Sys2Proof.Machine

/-- The lanes and the valid bytes of a context that has taken the bytes `bytes` since an INIT with `seed`: the words of
the stream are in the lanes, and the bytes past the last whole word are in the buffer. -/
structure HoldsStream (P : Params) (seed : Word) (bytes : List Byte) (k : Context) : Prop where
  lane : k.lane = streamLanes P seed bytes
  valid : validBytes k = bytes.drop (8 * (bytes.length / 8))

/-- The closed form of rule R121: the context holds the stream of its input and counts its bytes. -/
structure ContextOf (P : Params) (i : ContextInput) (k : Context) : Prop extends HoldsStream P i.seed i.stream k where
  totalLen : k.totalLen = BitVec.ofNat 64 i.stream.length

theorem HoldsStream.bufCnt {P : Params} {seed : Word} {bytes : List Byte} {k : Context}
    (h : HoldsStream P seed bytes k) : k.bufCnt.toNat = bytes.length % 8 := by
  rw [← validBytes_length, h.valid, List.length_drop]
  omega

theorem spanAt_drop (s : List Byte) (n : Nat) : spanAt (s.drop n) 0 = spanAt s n := by
  apply Vector.ext
  intro j hj
  simp [spanAt]

/-- The bytes past the last whole word, when one more byte completes no word. -/
theorem drop_words_append_partial (s : List Byte) (b : Byte) (h : s.length % 8 < 7) :
    (s ++ [b]).drop (8 * ((s ++ [b]).length / 8)) = s.drop (8 * (s.length / 8)) ++ [b] := by
  have hq : (s ++ [b]).length / 8 = s.length / 8 := by simp; omega
  rw [hq, List.drop_append_of_le_length (by omega)]

/-- A byte that completes a word leaves no byte past it. -/
theorem drop_words_append_complete (s : List Byte) (b : Byte) (h : s.length % 8 = 7) :
    (s ++ [b]).drop (8 * ((s ++ [b]).length / 8)) = [] := by
  apply List.drop_eq_nil_of_le
  simp
  omega

theorem streamLanes_append_partial (P : Params) (seed : Word) (s : List Byte) (b : Byte) (h : s.length % 8 < 7) :
    streamLanes P seed (s ++ [b]) = streamLanes P seed s := by
  rw [streamLanes, streamWords_append_partial s b h, streamLanes]

theorem streamLanes_append_complete (P : Params) (seed : Word) (s : List Byte) (b : Byte) (h : s.length % 8 = 7) :
    streamLanes P seed (s ++ [b]) = laneUpdate P (streamWord (s ++ [b]) (s.length / 8)) (streamLanes P seed s) := by
  rw [streamLanes, streamWords_append_complete s b h, List.foldl_append, streamLanes]
  rfl

/-- One absorbed byte is one more byte of the stream: it waits in the buffer, or it completes the stream's next word. -/
theorem absorbByte_holdsStream {P : Params} {seed : Word} {bytes : List Byte} {k : Context}
    (h : HoldsStream P seed bytes k) (b : Byte) : HoldsStream P seed (bytes ++ [b]) (absorbByte P k b) := by
  have hcnt := h.bufCnt
  obtain ⟨hlt, hvalid, hlane⟩ | ⟨h7, hvalid, hlane⟩ := absorbByte_valid P k b
  · rw [hcnt] at hlt
    constructor
    · rw [hlane, h.lane, streamLanes_append_partial P seed bytes b hlt]
    · rw [hvalid, h.valid, drop_words_append_partial bytes b hlt]
  · rw [hcnt] at h7
    have hword : spanAt (validBytes k ++ [b]) 0 = spanAt (bytes ++ [b]) (8 * (bytes.length / 8)) := by
      rw [h.valid, ← List.drop_append_of_le_length (by omega), spanAt_drop]
    constructor
    · rw [hlane, h.lane, hword, streamLanes_append_complete P seed bytes b h7, streamWord]
    · rw [hvalid, drop_words_append_complete bytes b h7]

theorem absorbBytes_holdsStream {P : Params} {seed : Word} {bytes : List Byte} {k : Context}
    (h : HoldsStream P seed bytes k) (bs : List Byte) :
    HoldsStream P seed (bytes ++ bs) (absorbBytes P bs k) := by
  induction bs generalizing bytes k with
  | nil => rwa [List.append_nil]
  | cons b bs ih =>
    rw [List.append_cons, absorbBytes_cons]
    exact ih (absorbByte_holdsStream h b)

@[simp] theorem streamLanes_nil (P : Params) (seed : Word) : streamLanes P seed [] = laneInit P seed := by
  simp [streamLanes, streamWords]

theorem setTotalLen_holdsStream {P : Params} {seed : Word} {bytes : List Byte} {k : Context}
    (h : HoldsStream P seed bytes k) (n : Word) : HoldsStream P seed bytes (k.setTotalLen n) :=
  ⟨h.lane, h.valid⟩

/-- INIT leaves the closed form of the empty stream, whatever the stale bytes of the buffer (rule R111). -/
theorem contextOf_init (P : Params) (seed : Word) (k : Context) :
    ContextOf P ⟨seed, []⟩ (((k.setLane (laneInit P seed)).setBuffer k.buf 0).setTotalLen 0) :=
  ⟨⟨by simp, by simp [validBytes]⟩, rfl⟩

/-- ABSORB keeps the closed form, over the stream with its bytes added; the length wraps as `TOTAL_LEN` does. -/
theorem absorbContext_contextOf {P : Params} {i : ContextInput} {k : Context} (h : ContextOf P i k) (nb : BitVec 4)
    (data : Word) :
    ContextOf P { i with stream := i.stream ++ dataBytes nb data } (absorbContext P nb data k) := by
  have hbytes := absorbBytes_holdsStream (setTotalLen_holdsStream h.toHoldsStream (k.totalLen + nb.setWidth 64))
    (dataBytes nb data)
  refine ⟨hbytes, ?_⟩
  apply BitVec.eq_of_toNat_eq
  simp [h.totalLen]

/-- The padded word of the buffer is the padded partial word of the stream. -/
theorem pad_of_holdsStream {P : Params} {seed : Word} {bytes : List Byte} {k : Context}
    (h : HoldsStream P seed bytes k) :
    pad k.buf k.bufCnt.toNat = pad (spanAt bytes (8 * (bytes.length / 8))) (bytes.length % 8) := by
  rw [← h.bufCnt]
  refine pad_congr fun j hj => ?_
  have hbyte := validBytes_getElem? k j hj
  rw [h.valid, List.getElem?_drop] at hbyte
  simp [spanAt, hbyte]

/-- The finalizer makes of the closed form the finalized lanes of rule R148. -/
theorem finalLanes_of_contextOf {P : Params} {i : ContextInput} {k : Context} (h : ContextOf P i k) :
    finalLanes P k = hashLanes P i.seed i.stream := by
  have hempty : k.bufCnt = 0 ↔ i.stream.length % 8 = 0 := by
    rw [← BitVec.toNat_inj, h.bufCnt]
    rfl
  have htail : absorbTail P k = streamTail P i.stream (streamLanes P i.seed i.stream) := by
    simp only [absorbTail, streamTail, hempty, pad_of_holdsStream h.toHoldsStream, h.lane]
  rw [finalLanes, hashLanes, htail, h.totalLen]

end Sys2Proof.Machine
end

section
/-! What a block has made of the commands it was given: a live context and a valid digest are those of the accepted
stream (20_memory.md rule R61, 40_hash_core.md rule R121, 41_finalizer.md rule R148). -/

namespace Sys2Proof.Machine

theorem acceptInput_of_nop {c : Command} (hv : verdict c.cmd = .nop) (s : State) (i : ContextInput) :
    acceptInput c s i = i := by
  simp [acceptInput, hv]

theorem acceptInput_of_init {c : Command} {s : State} (hv : verdict c.cmd = .init) (herr : s.err = false)
    (i : ContextInput) : acceptInput c s i = ⟨c.data, []⟩ := by
  simp [acceptInput, hv, herr]

theorem acceptInput_of_absorb {c : Command} {nb : BitVec 4} {s : State} (hv : verdict c.cmd = .absorb nb)
    (herr : s.err = false) (hact : s.active = true) (i : ContextInput) :
    acceptInput c s i = { i with stream := i.stream ++ dataBytes nb c.data } := by
  simp [acceptInput, hv, herr, hact]

theorem acceptInput_of_inactive {c : Command} {nb : BitVec 4} {s : State} (hv : verdict c.cmd = .absorb nb)
    (hact : s.active = false) (i : ContextInput) : acceptInput c s i = i := by
  simp [acceptInput, hv, hact]

theorem acceptInput_of_finalize {c : Command} (hv : verdict c.cmd = .finalize) (s : State) (i : ContextInput) :
    acceptInput c s i = i := by
  simp [acceptInput, hv]

theorem acceptInput_of_illegal {c : Command} {code : ErrCode} (hv : verdict c.cmd = .illegal code) (s : State)
    (i : ContextInput) : acceptInput c s i = i := by
  simp [acceptInput, hv]

/-- An INIT accepted without error starts a context (rule R111). -/
theorem commandTransition_of_init {c : Command} {s : State} (hv : verdict c.cmd = .init) (herr : s.err = false) :
    commandTransition c s =
      (s.setCtx (((s.ctx.setLane (laneInit Config.params c.data)).setBuffer s.ctx.buf 0).setTotalLen 0)).setLife
        true false := by
  simp only [commandTransition, hv]
  exact initCommand_of_noErr herr Config.params c.data

/-- An ABSORB accepted without error changes the live context only (rule R112). -/
theorem commandTransition_of_absorb {c : Command} {nb : BitVec 4} {s : State} (hv : verdict c.cmd = .absorb nb)
    (herr : s.err = false) (hact : s.active = true) :
    commandTransition c s = s.setCtx (absorbContext Config.params nb c.data s.ctx) := by
  simp only [commandTransition, hv]
  exact absorbCommand_of_live herr hact Config.params (verdict_absorb_le hv) c.data

theorem commandTransition_of_nop {c : Command} (hv : verdict c.cmd = .nop) (s : State) :
    commandTransition c s = s := by
  simp [commandTransition, hv]

theorem live_of_init {c : Command} {s : State} (hv : verdict c.cmd = .init) (herr : s.err = false) :
    (commandTransition c s).err = false ∧ (commandTransition c s).active = true := by
  rw [commandTransition_of_init hv herr]
  exact ⟨herr, rfl⟩

theorem live_of_absorb {c : Command} {nb : BitVec 4} {s : State} (hv : verdict c.cmd = .absorb nb)
    (herr : s.err = false) (hact : s.active = true) :
    (commandTransition c s).err = false ∧ (commandTransition c s).active = true := by
  rw [commandTransition_of_absorb hv herr hact]
  exact ⟨herr, hact⟩

/-- A command that ends with an error standing adds nothing: the two kinds that change the input, an INIT and an ABSORB
accepted without error, leave `ERR` as it was. -/
theorem acceptInput_of_err_after {c : Command} {s t : State} (hrun : runCommand c s = .next t) (ht : t.err = true)
    (i : ContextInput) : acceptInput c s i = i := by
  rw [runCommand_eq_transition] at hrun
  cases hrun
  obtain h | ⟨herr, hv, -⟩ | ⟨herr, hact, nb, hv, -⟩ := acceptInput_cases c s i
  · exact h
  · exact absurd ht (by simp [live_of_init hv herr])
  · exact absurd ht (by simp [live_of_absorb hv herr hact])

/-- What the block holds of the input `i` of its latest context: while the context is live, its closed form and no valid
digest; and when there is a valid digest, it is `H(seed, stream)`. -/
structure HoldsInput (i : ContextInput) (s : State) : Prop where
  live_no_digest : s.active = true → s.digestValid = false
  live : s.active = true → ContextOf Config.params i s.ctx
  digest : s.digestValid = true → s.digest = hashDigest Config.params i.seed i.stream

theorem holdsInput_of_idle {s : State} (hact : s.active = false) (hvalid : s.digestValid = false)
    (i : ContextInput) : HoldsInput i s :=
  ⟨fun _ => hvalid, fun h => absurd h (by simp [hact]), fun h => absurd h (by simp [hvalid])⟩

/-- Every transferred command keeps `HoldsInput`, over the input it makes. -/
theorem runCommand_holdsInput {c : Command} {s t : State} {i : ContextInput} (h : HoldsInput i s)
    (hrun : runCommand c s = .next t) : HoldsInput (acceptInput c s i) t := by
  cases commandEffect_of_runCommand hrun with
  | unchanged hnone =>
    have hinput : acceptInput c s i = i :=
      hnone.elim (fun herr => acceptInput_of_err herr c i) (fun hv => acceptInput_of_nop hv s i)
    rwa [hinput]
  | raised code _ =>
    rw [acceptInput_of_err_after hrun rfl]
    exact ⟨h.live_no_digest, h.live, h.digest⟩
  | started hv herr =>
    rw [acceptInput_of_init hv herr]
    exact ⟨fun _ => rfl, fun _ => contextOf_init Config.params c.data s.ctx, fun hvalid => nomatch hvalid⟩
  | absorbed nb hv herr hact =>
    rw [acceptInput_of_absorb hv herr hact]
    have hinvalid : ¬ s.digestValid = true := by simp [h.live_no_digest hact]
    exact ⟨h.live_no_digest, fun _ => absorbContext_contextOf (h.live hact) nb c.data,
      fun hvalid => absurd hvalid hinvalid⟩
  | finalized hv _ hact =>
    rw [acceptInput_of_finalize hv]
    exact ⟨(fun hlive => nomatch hlive), (fun hlive => nomatch hlive),
      fun _ => congrArg serialize (finalLanes_of_contextOf (h.live hact))⟩

/-- So every sequence of commands keeps it, over the input of rule R61. -/
theorem runCommands_holdsInput {cs : List Command} {s t : State} {i : ContextInput} (h : HoldsInput i s)
    (hrun : runCommands cs s = .next t) : HoldsInput (contextInput cs s i) t := by
  induction cs generalizing s i with
  | nil =>
    cases hrun
    exact h
  | cons c cs ih =>
    have hc := runCommand_eq_transition c s
    rw [runCommands_cons_next hc] at hrun
    rw [contextInput_cons_next hc]
    exact ih (runCommand_holdsInput h hc) hrun

/-- Settles O42: the invariant `HoldsInput` holds where nothing is live and no digest is valid, and every command keeps
it. -/
theorem everyDigestIsOfTheAcceptedStream : Obligations.EveryDigestIsOfTheAcceptedStream := by
  intro cs s t i hact hvalid hrun
  have h := runCommands_holdsInput (holdsInput_of_idle hact hvalid i) hrun
  refine ⟨fun hlive => ?_, h.digest⟩
  have hk := h.live hlive
  exact ⟨hk.lane, hk.bufCnt, hk.valid, hk.totalLen⟩

/-- On a live block, ABSORBs and NOPs keep the context live and add exactly the bytes of the ABSORBs. -/
theorem contextInput_of_absorbsAndNops {cs : List Command} (hcs : ∀ c ∈ cs, isAbsorb c = true ∨ c.cmd = 0x00)
    {s : State} (herr : s.err = false) (hact : s.active = true) (i : ContextInput) :
    contextInput cs s i = { i with stream := i.stream ++ (cs.filter isAbsorb).flatMap commandBytes } := by
  induction cs generalizing s i with
  | nil => simp
  | cons c cs ih =>
    obtain ⟨hc, hrest⟩ := List.forall_mem_cons.mp hcs
    rw [contextInput_cons_next (runCommand_eq_transition c s)]
    obtain habs | hnop := hc
    · have hv := verdict_of_isAbsorb habs
      obtain ⟨herr', hact'⟩ := live_of_absorb hv herr hact
      rw [ih hrest herr' hact', acceptInput_of_absorb hv herr hact, List.filter_cons_of_pos habs]
      simp [commandBytes, hv]
    · have hv : verdict c.cmd = .nop := by rw [hnop]; rfl
      have hskip : ¬ isAbsorb c = true := by simp [isAbsorb, hnop]
      rw [commandTransition_of_nop hv, acceptInput_of_nop hv, ih hrest herr hact, List.filter_cons_of_neg hskip]

/-- An INIT accepted without error and the ABSORBs and NOPs after it, whatever the input before. -/
theorem contextInput_of_init (seed : Word) {cs : List Command}
    (hcs : ∀ c ∈ cs, isAbsorb c = true ∨ c.cmd = 0x00) {s : State} (herr : s.err = false) (i : ContextInput) :
    contextInput (⟨0x10, seed⟩ :: cs) s i = ⟨seed, (cs.filter isAbsorb).flatMap commandBytes⟩ := by
  have hv : verdict (⟨0x10, seed⟩ : Command).cmd = .init := by
    show verdict 0x10 = .init
    decide
  obtain ⟨herr', hact'⟩ := live_of_init hv herr
  rw [contextInput_cons_next (runCommand_eq_transition _ s), contextInput_of_absorbsAndNops hcs herr' hact',
    acceptInput_of_init hv herr, List.nil_append]

/-- Each cause for which rule R61 lets a command add nothing. -/
theorem acceptInput_of_notAccepted {c : Command} {s : State}
    (h : s.err = true ∨ (s.active = false ∧ isAbsorb c = true) ∨ verdict c.cmd = .finalize ∨
      4 ≤ c.cmd.toNat / 16 ∨ illegalByteCount c.cmd = true) (i : ContextInput) : acceptInput c s i = i := by
  obtain herr | ⟨hact, habs⟩ | hfin | hopc | hnb := h
  · exact acceptInput_of_err herr c i
  · exact acceptInput_of_inactive (verdict_of_isAbsorb habs) hact i
  · exact acceptInput_of_finalize hfin s i
  · exact acceptInput_of_illegal (verdict_of_reserved hopc) s i
  · exact acceptInput_of_illegal (verdict_of_illegalByteCount hnb) s i

/-- Settles O41: the commands before leave a state and an input; an INIT from there forgets that input, and a command
that is not accepted keeps it. -/
theorem acceptedStreamSinceInit : Obligations.AcceptedStreamSinceInit := by
  constructor
  · intro before cs seed s m i hrun herr hcs
    rw [contextInput_append hrun, contextInput_of_init seed hcs herr]
  · intro before c s m i hrun hcause
    rw [contextInput_append hrun, contextInput_cons_next (runCommand_eq_transition c m), contextInput_nil,
      acceptInput_of_notAccepted hcause]

end Sys2Proof.Machine
end

section
/-! Bytes packed little-endian into a word: `DATA` and the stream words (20_memory.md rules R62, R64) and the digest
port (rule R66) are the same packing at two widths. -/

namespace Sys2Proof.Machine

/-- The bytes of `b` side by side in `w` bits, byte `k` at bits `8k+7..8k`. -/
def packBytes (w : Nat) {n : Nat} (b : Vector Byte n) : BitVec w :=
  (List.finRange n).foldl (fun (acc : BitVec w) k => acc ||| (b[k].setWidth w : BitVec w) <<< (8 * k.val)) 0#w

theorem digestBits_eq_packBytes (d : Vector Byte 32) : digestBits d = packBytes 256 d := rfl

theorem leWord_eq_packBytes (b : Vector Byte 8) : leWord b = packBytes 64 b := by
  simp [leWord, packBytes, List.finRange]

theorem byteOf_getLsbD (x : Word) (j : Nat) {i : Nat} (hi : i < 8) :
    (byteOf x j).getLsbD i = x.getLsbD (8 * j + i) := by
  simp [byteOf, hi]

/-- A byte put at place `k` has its bits at the positions whose quotient by 8 is `k`. -/
theorem placedByte_getLsbD (x : Byte) (k : Nat) {w i : Nat} (hi : i < w) :
    (x.setWidth w <<< (8 * k)).getLsbD i = (decide (i / 8 = k) && x.getLsbD (i % 8)) := by
  rw [BitVec.getLsbD_shiftLeft, BitVec.getLsbD_setWidth]
  by_cases hk : i / 8 = k
  · have hpos : i - 8 * k = i % 8 := by omega
    have hge : ¬ i < 8 * k := by omega
    have hlt : i % 8 < w := by omega
    simp [hi, hk, hpos, hge, hlt]
  · by_cases hge : i < 8 * k
    · simp [hk, hge]
    · simp [hk, BitVec.getLsbD_of_ge x (i - 8 * k) (by omega)]

/-- Bit `i` of an `|||` over a list is set when one of the terms sets it. -/
theorem foldl_or_getLsbD {α : Type} {w : Nat} (f : α → BitVec w) (l : List α) (acc : BitVec w) (i : Nat) :
    (l.foldl (fun acc a => acc ||| f a) acc).getLsbD i = (acc.getLsbD i || l.any fun a => (f a).getLsbD i) := by
  induction l generalizing acc with
  | nil => simp
  | cons a l ih => rw [List.foldl_cons, ih, BitVec.getLsbD_or, List.any_cons, Bool.or_assoc]

/-- Bit `i` of the packing is bit `i mod 8` of byte `i / 8`: no other byte reaches it. -/
theorem packBytes_getLsbD {w n : Nat} (b : Vector Byte n) {i : Nat} (hw : i < w) (hn : i / 8 < n) :
    (packBytes w b).getLsbD i = b[i / 8].getLsbD (i % 8) := by
  rw [packBytes, foldl_or_getLsbD (fun k : Fin n => (b[k].setWidth w : BitVec w) <<< (8 * k.val)), Bool.eq_iff_iff]
  simp only [placedByte_getLsbD _ _ hw, BitVec.getLsbD_zero, Bool.false_or, List.any_eq_true, List.mem_finRange,
    true_and, Bool.and_eq_true, decide_eq_true_eq]
  constructor
  · rintro ⟨⟨k, hk⟩, rfl, hbit⟩
    exact hbit
  · exact fun hbit => ⟨⟨i / 8, hn⟩, rfl, hbit⟩

/-- Byte `k` of the packing is the byte that was put there. -/
theorem packBytes_extract {w n : Nat} (b : Vector Byte n) (hw : 8 * n ≤ w) {k : Nat} (hk : k < n) :
    (packBytes w b).extractLsb' (8 * k) 8 = b[k] := by
  apply BitVec.eq_of_getLsbD_eq
  intro i hi
  have hplace : (8 * k + i) / 8 = k := by omega
  have hbit : (8 * k + i) % 8 = i := by omega
  rw [BitVec.getLsbD_extractLsb', packBytes_getLsbD b (by omega) (by omega)]
  simp only [hi, hplace, hbit, decide_true, Bool.true_and]

/-- The bytes of a word, packed, are the word (40_hash_core.md rule R101). -/
theorem leWord_bytes (x : Word) : leWord (Vector.ofFn fun j => byteOf x j.val) = x := by
  apply BitVec.eq_of_getLsbD_eq
  intro i hi
  rw [leWord_eq_packBytes, packBytes_getLsbD _ hi (by omega), Vector.getElem_ofFn, byteOf_getLsbD _ _ (by omega),
    Nat.div_add_mod]

/-- Lane `i` stands on bits `64i+63..64i` of the port: its byte `j` is digest byte `8i + j` (41_finalizer.md rule
R146). -/
theorem digestBits_serialize_extract (lane : Vector Word 4) (i : Fin 4) :
    (digestBits (serialize lane)).extractLsb' (64 * i.val) 64 = lane[i] := by
  apply BitVec.eq_of_getLsbD_eq
  intro j hj
  have hlane : (64 * i.val + j) / 8 / 8 = i.val := by omega
  have hbit : 8 * ((64 * i.val + j) / 8 % 8) + (64 * i.val + j) % 8 = j := by omega
  rw [BitVec.getLsbD_extractLsb', digestBits_eq_packBytes, packBytes_getLsbD _ (by omega) (by omega),
    serialize_getElem, byteOf_getLsbD _ _ (by omega), hbit]
  simp only [hj, hlane, decide_true, Bool.true_and, Fin.getElem_fin]

/-- Settles O33: the port is the packing of the digest's bytes, and a serialized lane is eight of them. -/
theorem digestPortCarriesLanes : Obligations.DigestPortCarriesLanes :=
  ⟨fun d k => packBytes_extract d (Nat.le_refl _) k.isLt, digestBits_serialize_extract⟩

end Sys2Proof.Machine
end

section
/-! The bytes of an ABSORB (20_memory.md rule R62). -/

namespace Sys2Proof.Machine

theorem dataBytes_getElem? {nb : BitVec 4} {j : Nat} (h : j < nb.toNat) (data : Word) :
    (dataBytes nb data)[j]? = some (byteOf data j) := by
  simp [dataBytes, h]

/-- The bits of `DATA` above the low `NB` bytes are not in the bytes of the ABSORB. -/
theorem dataBytes_congr {nb : BitVec 4} {data data' : Word}
    (h : ∀ b < 8 * nb.toNat, data'.getLsbD b = data.getLsbD b) : dataBytes nb data' = dataBytes nb data := by
  apply List.map_congr_left
  intro j hj
  have hlt := List.mem_range.mp hj
  apply BitVec.eq_of_getLsbD_eq
  intro i hi
  rw [byteOf_getLsbD _ _ hi, byteOf_getLsbD _ _ hi, h _ (by omega)]

/-- ABSORB reads `DATA` through its bytes only. -/
theorem absorbCommand_congr (P : Params) {nb : BitVec 4} {data data' : Word}
    (h : dataBytes nb data' = dataBytes nb data) : absorbCommand P nb data' = absorbCommand P nb data := by
  simp only [absorbCommand, absorbContext, h]

/-- The little-endian word of the bytes of a full ABSORB is `DATA` itself. -/
theorem leWord_dataBytes_eight (data : Word) :
    leWord (Vector.ofFn fun j => (dataBytes 8 data).getD j.val 0) = data := by
  have hbytes : (fun j : Fin 8 => (dataBytes 8 data).getD j.val 0) = fun j => byteOf data j.val := by
    funext j
    rw [List.getD_eq_getElem?_getD, dataBytes_getElem? j.isLt, Option.getD_some]
  rw [hbytes, leWord_bytes]

/-- Settles O6: the bytes one by one, the bits above them by congruence, and the context of a live block from the
equation of an accepted ABSORB. -/
theorem absorbTakesLowBytesInOrder : Obligations.AbsorbTakesLowBytesInOrder := by
  intro nb data hnb
  refine ⟨dataBytes_length nb data, fun j hj => dataBytes_getElem? hj data, ?_, ?_, ?_⟩
  · intro data' s hlow
    rw [exec_absorb, exec_absorb, absorbCommand_congr _ (dataBytes_congr hlow)]
  · intro s herr hact
    refine ⟨_, exec_absorb nb data s, ?_⟩
    rw [absorbCommand_of_live herr hact _ hnb, State.setCtx_ctx, absorbContext_totalLen]
    rfl
  · rintro rfl
    exact leWord_dataBytes_eight data

end Sys2Proof.Machine
end

section
/-! The block does not see what the host will present later, so steps over pending commands are the fold of the
transition over them (20_memory.md rule R71, 70_reset_and_hazards.md rule R196). -/

namespace Sys2Proof.Machine

theorem unlessErr_setPending {f : State → State} {s : State} {p : List HostInput}
    (hf : f (s.setPending p) = (f s).setPending p) :
    unlessErr f (s.setPending p) = (unlessErr f s).setPending p := by
  cases herr : s.err with
  | true => rw [unlessErr_of_err herr, unlessErr_of_err (s := s.setPending p) herr]
  | false => rw [unlessErr_of_noErr herr, unlessErr_of_noErr (s := s.setPending p) herr, hf]

theorem raiseErr_setPending (code : ErrCode) (s : State) (p : List HostInput) :
    raiseErr code (s.setPending p) = (raiseErr code s).setPending p :=
  unlessErr_setPending (f := fun s => s.setErr true (errCodeBits code)) rfl

theorem withContext_setPending {f : State → State} {s : State} {p : List HostInput}
    (hf : f (s.setPending p) = (f s).setPending p) :
    withContext f (s.setPending p) = (withContext f s).setPending p := by
  cases hact : s.active with
  | true => rw [withContext_of_active hact, withContext_of_active (s := s.setPending p) hact, hf]
  | false =>
    rw [withContext_of_inactive hact, withContext_of_inactive (s := s.setPending p) hact, raiseErr_setPending]

theorem absorbCommand_setPending (P : Params) (nb : BitVec 4) (data : Word) (s : State) (p : List HostInput) :
    absorbCommand P nb data (s.setPending p) = (absorbCommand P nb data s).setPending p := by
  apply unlessErr_setPending
  by_cases hnb : nb.toNat ≤ 8
  · simp only [hnb, if_true]
    exact withContext_setPending rfl
  · simp only [hnb, if_false]
    exact raiseErr_setPending .illegalNb s p

/-- The transition neither reads nor writes the host's later inputs. -/
theorem commandTransition_setPending (c : Command) (s : State) (p : List HostInput) :
    commandTransition c (s.setPending p) = (commandTransition c s).setPending p := by
  unfold commandTransition
  cases verdict c.cmd with
  | nop => rfl
  | init => exact unlessErr_setPending rfl
  | absorb nb => exact absorbCommand_setPending _ nb c.data s p
  | finalize => exact unlessErr_setPending (withContext_setPending rfl)
  | illegal code => exact raiseErr_setPending code s p

/-- The run of the machine, one step taken. -/
theorem run_succ_of_step {s t : State} (h : step s = .next t) (k : Nat) :
    Host.Core.run Sys2Proof.core (k + 1) s = Host.Core.run Sys2Proof.core k t := by
  have hcore : Sys2Proof.core.step s = .next t := h
  simp only [Host.Core.run, hcore]

/-- Settles O30: by induction over the commands; the first step transfers the first command, and its transition commutes
with the list of inputs still to come. -/
theorem stepsFoldOverCommands : Obligations.StepsFoldOverCommands := by
  intro cs rest s hbusy hp
  induction cs generalizing s with
  | nil =>
    rw [← show s.pending = rest from hp, State.setPending_self]
    rfl
  | cons c cs ih =>
    let u := (commandTransition c s).setPending (cs.map .command ++ rest)
    have hstep : step s = .next u := by
      rw [step_of_transfer hp hbusy, runCommand_eq_transition, commandTransition_setPending]
      rfl
    have hready : u.busy = false := (runCommand_busy (runCommand_eq_transition c s)).trans hbusy
    have hfold : runCommands (c :: cs) (s.setPending rest) = runCommands cs (u.setPending rest) := by
      rw [runCommands_cons_next (runCommand_eq_transition c (s.setPending rest)), commandTransition_setPending]
      rfl
    exact (run_succ_of_step hstep cs.length).trans ((ih u hready rfl).trans hfold.symm)

end Sys2Proof.Machine
end

section
/-! The verdict on every command byte, and the instruction and the command byte that belong together (30_encoding.md
rules R80 to R86 and R90). -/

namespace Sys2Proof.Machine

theorem opcField_ge_iff (cmd : BitVec 8) (n : BitVec 4) : opcField cmd ≥ n ↔ n.toNat ≤ cmd.toNat / 16 := by
  rw [ge_iff_le, BitVec.le_def, opcField_toNat]

theorem nbField_gt_iff (cmd : BitVec 8) (n : BitVec 4) : nbField cmd > n ↔ n.toNat < cmd.toNat % 16 := by
  rw [gt_iff_lt, BitVec.lt_def, nbField_toNat]

theorem nbField_eq_iff (cmd : BitVec 8) (n : BitVec 4) : nbField cmd = n ↔ cmd.toNat % 16 = n.toNat := by
  rw [← BitVec.toNat_inj, nbField_toNat]

theorem nbField_eq_ofNat (cmd : BitVec 8) : nbField cmd = BitVec.ofNat 4 (cmd.toNat % 16) := by
  rw [nbField_eq_iff, BitVec.toNat_ofNat]
  omega

/-- The checks of rule R86 on the two digits of the command byte. -/
theorem verdict_eq_checks (cmd : BitVec 8) :
    verdict cmd =
      (if 4 ≤ cmd.toNat / 16 then .illegal .illegalOpc
       else if cmd.toNat / 16 = 2 ∧ 8 < cmd.toNat % 16 then .illegal .illegalNb
       else if cmd.toNat / 16 ≠ 2 ∧ cmd.toNat % 16 ≠ 0 then .illegal .illegalNb
       else if cmd.toNat / 16 = 0 then .nop
       else if cmd.toNat / 16 = 1 then .init
       else if cmd.toNat / 16 = 2 then .absorb (BitVec.ofNat 4 (cmd.toNat % 16))
       else .finalize) := by
  simp only [verdict, opcField_ge_iff, opcField_eq_iff, nbField_gt_iff, nbField_eq_iff, ← nbField_eq_ofNat, ne_eq]
  rfl

/-- Settles O3: the checks read digit by digit, and the census computed over the 256 values. -/
theorem verdictCensus : Obligations.VerdictCensus :=
  ⟨verdict_eq_checks, by decide +kernel⟩

/-- Settles O4: each word is decoded by computation. -/
theorem encodingExamplesDecode : Obligations.EncodingExamplesDecode :=
  ⟨rfl, rfl, rfl, rfl, rfl, rfl, rfl, rfl, rfl⟩

/-- `VerdictCase cmd v`: the digits of a command byte `cmd` with the verdict `v`. -/
inductive VerdictCase (cmd : BitVec 8) : Verdict → Prop
  | nop (opc : cmd.toNat / 16 = 0) (nb : cmd.toNat % 16 = 0) : VerdictCase cmd .nop
  | init (opc : cmd.toNat / 16 = 1) (nb : cmd.toNat % 16 = 0) : VerdictCase cmd .init
  | absorb (opc : cmd.toNat / 16 = 2) (nb : cmd.toNat % 16 ≤ 8) : VerdictCase cmd (.absorb (nbField cmd))
  | finalize (opc : cmd.toNat / 16 = 3) (nb : cmd.toNat % 16 = 0) : VerdictCase cmd .finalize
  | reserved (opc : 4 ≤ cmd.toNat / 16) : VerdictCase cmd (.illegal .illegalOpc)
  | illegalCount (nb : illegalByteCount cmd = true) : VerdictCase cmd (.illegal .illegalNb)

/-- Every command byte is in one of the six cases of rule R86. -/
theorem verdictCase (cmd : BitVec 8) : VerdictCase cmd (verdict cmd) := by
  rw [verdict_eq_checks]
  split_ifs with hres h2 hother h0 h1 habs
  · exact .reserved hres
  · exact .illegalCount (decide_eq_true (.inl h2))
  · exact .illegalCount (decide_eq_true (.inr ⟨Nat.not_le.mp hres, hother⟩))
  · exact .nop h0 (by omega)
  · exact .init h1 (by omega)
  · rw [← nbField_eq_ofNat]
    exact .absorb habs (by omega)
  · exact .finalize (by omega) (by omega)

/-- The high bits of a word and its low bits put together are the word. -/
theorem toNat_append_low_bits {m k w : Nat} (high : BitVec m) (x : BitVec w) (h : x.toNat / 2 ^ k = high.toNat) :
    (high ++ x.extractLsb' 0 k).toNat = x.toNat := by
  rw [BitVec.toNat_append, BitVec.extractLsb'_toNat, Nat.shiftRight_zero, ← h,
    ← Nat.shiftLeft_add_eq_or_of_lt (Nat.mod_lt _ (Nat.two_pow_pos k)), Nat.shiftLeft_eq, Nat.div_add_mod']

theorem cmd_eq_of_digits {cmd : BitVec 8} {opc : Nat} (hopc : cmd.toNat / 16 = opc) (hnb : cmd.toNat % 16 = 0) :
    BitVec.ofNat 8 (16 * opc) = cmd := by
  apply BitVec.eq_of_toNat_eq
  rw [BitVec.toNat_ofNat]
  omega

theorem cmd_getLsbD_seven (cmd : BitVec 8) : cmd.getLsbD 7 = decide (128 ≤ cmd.toNat) := by
  exact (BitVec.msb_eq_getLsbD_last cmd).symm.trans (BitVec.msb_eq_decide cmd)

/-- `DecodeCase c i`: the command byte of a transfer `c` that decodes to `i`, one case per row of the opcode table. -/
inductive DecodeCase (c : Command) : Instr → Prop
  | nop (cmd : 0x00#8 = c.cmd) : DecodeCase c .nop
  | init (cmd : 0x10#8 = c.cmd) : DecodeCase c (.init c.data)
  | absorb (nb : BitVec 4) (count : nb.toNat ≤ 8) (cmd : 0x2#4 ++ nb = c.cmd) : DecodeCase c (.absorb nb c.data)
  | finalize (cmd : 0x30#8 = c.cmd) : DecodeCase c .finalize
  | reserved40 (low : BitVec 6) (cmd : 0b01#2 ++ low = c.cmd) : DecodeCase c (.reserved40 low)
  | reserved80 (low : BitVec 7) (cmd : 0b1#1 ++ low = c.cmd) : DecodeCase c (.reserved80 low)

/-- By the verdict on the command byte; a reserved opcode is told apart by its top bit. -/
theorem decodeCase {c : Command} {i : Instr} (h : decode c = .ok i) : DecodeCase c i := by
  unfold decode at h
  generalize hv : verdict c.cmd = v at h
  have hcase := verdictCase c.cmd
  rw [hv] at hcase
  cases hcase with
  | nop hopc hnb => cases h; exact .nop (cmd_eq_of_digits hopc hnb)
  | init hopc hnb => cases h; exact .init (cmd_eq_of_digits hopc hnb)
  | absorb hopc hnb =>
    cases h
    exact .absorb _ (verdict_absorb_le hv) (BitVec.eq_of_toNat_eq (toNat_append_low_bits (k := 4) 0x2#4 c.cmd hopc))
  | finalize hopc hnb => cases h; exact .finalize (cmd_eq_of_digits hopc hnb)
  | reserved hopc =>
    dsimp only at h
    rw [cmd_getLsbD_seven] at h
    split_ifs at h with htop
    · cases h
      refine .reserved80 _ (BitVec.eq_of_toNat_eq (toNat_append_low_bits (k := 7) 0b1#1 c.cmd ?_))
      rw [decide_eq_true_eq] at htop
      simp only [BitVec.toNat_ofNat]
      omega
    · cases h
      refine .reserved40 _ (BitVec.eq_of_toNat_eq (toNat_append_low_bits (k := 6) 0b01#2 c.cmd ?_))
      rw [decide_eq_true_eq] at htop
      simp only [BitVec.toNat_ofNat]
      omega
  | illegalCount _ => cases h

theorem encode_cmd_of_decode {c : Command} {i : Instr} (h : decode c = .ok i) : (encode i).cmd = c.cmd := by
  cases decodeCase h with
  | nop cmd | init cmd | absorb _ _ cmd | finalize cmd | reserved40 _ cmd | reserved80 _ cmd => exact cmd

theorem wellFormed_of_decode {c : Command} {i : Instr} (h : decode c = .ok i) : i.wellFormed = true := by
  cases decodeCase h with
  | absorb _ count _ => exact decide_eq_true count
  | nop _ | init _ | finalize _ | reserved40 _ _ | reserved80 _ _ => rfl

/-- The instruction of an INIT or an ABSORB keeps the whole `DATA` of the transfer. -/
theorem encode_data_of_decode {c : Command} {i : Instr} (h : decode c = .ok i)
    (hv : verdict c.cmd = .init ∨ ∃ nb, verdict c.cmd = .absorb nb) : (encode i).data = c.data := by
  obtain hv | ⟨nb, hv⟩ := hv
  · simp only [decode, hv, Except.ok.injEq] at h
    rw [← h, encode]
  · simp only [decode, hv, Except.ok.injEq] at h
    rw [← h, encode]

/-- The `DATA` bits that rule R83 lets a command ignore: all but those of INIT and the bytes of an ABSORB. -/
theorem runCommand_congr_data (cmd : BitVec 8) {d₁ d₂ : Word} (hinit : verdict cmd = .init → d₁ = d₂)
    (habs : ∀ nb, verdict cmd = .absorb nb → dataBytes nb d₁ = dataBytes nb d₂) (s : State) :
    runCommand ⟨cmd, d₁⟩ s = runCommand ⟨cmd, d₂⟩ s := by
  rw [runCommand_verdict, runCommand_verdict]
  dsimp only
  cases hv : verdict cmd with
  | nop | finalize | illegal _ => rfl
  | init => rw [hinit hv]
  | absorb nb => simp only [absorbCommand_congr _ (habs nb hv)]

/-- Settles O2: the re-encoded transfer has the same command byte, and the same `DATA` where the command reads it. -/
theorem encodeInvertsDecode : Obligations.EncodeInvertsDecode := by
  intro c i h
  refine ⟨wellFormed_of_decode h, encode_cmd_of_decode h, fun s => ?_⟩
  have hcmd : encode i = ⟨c.cmd, (encode i).data⟩ := by rw [← encode_cmd_of_decode h]
  rw [hcmd]
  exact runCommand_congr_data c.cmd (fun hv => encode_data_of_decode h (.inl hv))
    (fun nb hv => by rw [encode_data_of_decode h (.inr ⟨nb, hv⟩)]) s

/-- Settles O5: no command but INIT reads `DATA`, but for an ABSORB its bytes. -/
theorem ignoredDataBitsHaveNoEffect : Obligations.IgnoredDataBitsHaveNoEffect :=
  fun cmd _ _ s hinit hlow =>
    runCommand_congr_data cmd (fun hv => absurd hv hinit) (fun nb hv => dataBytes_congr (hlow nb hv)) s

/-- A command whose verdict is an error raises it, and does nothing else. -/
theorem runCommand_of_illegal {c : Command} {code : ErrCode} (hv : verdict c.cmd = .illegal code) {s : State}
    (herr : s.err = false) : runCommand c s = .next (s.setErr true (errCodeBits code)) := by
  simp only [runCommand_verdict, hv, raiseErr_of_noErr herr]

/-- Settles O21: the reserved rows and the verdict on the reserved opcodes all raise `ILLEGAL_OPC`. -/
theorem reservedOpcodesRaise : Obligations.ReservedOpcodesRaise := by
  intro s herr
  refine ⟨fun low => ?_, fun low => ?_, fun c hopc => runCommand_of_illegal (verdict_of_reserved hopc) herr⟩
  · rw [exec_reserved40, raiseErr_of_noErr herr]
    rfl
  · rw [exec_reserved80, raiseErr_of_noErr herr]
    rfl

/-- Settles O24: the verdict on an illegal byte count is `ILLEGAL_NB`. -/
theorem illegalByteCountRaises : Obligations.IllegalByteCountRaises :=
  fun _ _ herr hnb => runCommand_of_illegal (verdict_of_illegalByteCount hnb) herr

end Sys2Proof.Machine
end

section
/-! The expansion of ABSORBS (30_encoding.md rules R87 to R89): legal ABSORBs that carry the bytes of the stream, the
whole words first and then the rest. -/

namespace Sys2Proof.Machine

/-- The bytes of an ABSORB whose word holds the bytes of a stream from `start` on. -/
theorem dataBytes_eq_take {nb : BitVec 4} {w : Word} {s : List Byte} {start : Nat} (hfit : start + nb.toNat ≤ s.length)
    (hw : ∀ j < nb.toNat, byteOf w j = s.getD (start + j) 0) : dataBytes nb w = (s.drop start).take nb.toNat := by
  apply List.ext_getElem
  · rw [dataBytes_length, List.length_take, List.length_drop]
    omega
  · intro j hj hj'
    rw [dataBytes_length] at hj
    simp only [dataBytes, List.getElem_map, List.getElem_range, hw j hj, List.getElem_take, List.getElem_drop]
    rw [List.getD_eq_getElem]

theorem byteOf_leWord (b : Vector Byte 8) {j : Nat} (hj : j < 8) : byteOf (leWord b) j = b[j] := by
  rw [leWord_eq_packBytes]
  exact packBytes_extract b (Nat.le_refl _) hj

theorem spanAt_getElem (s : List Byte) (start : Nat) {j : Nat} (hj : j < 8) :
    (spanAt s start)[j] = s.getD (start + j) 0 := by
  simp only [spanAt, Vector.getElem_ofFn]

/-- A full ABSORB of a stream word carries its eight bytes. -/
theorem dataBytes_streamWord {s : List Byte} {k : Nat} (hfit : 8 * k + 8 ≤ s.length) :
    dataBytes 8 (streamWord s k) = (s.drop (8 * k)).take 8 :=
  dataBytes_eq_take (nb := 8) hfit fun j hj => by rw [streamWord, byteOf_leWord _ hj, spanAt_getElem]

/-- The ABSORB of a padded partial word carries the bytes that were padded. -/
theorem dataBytes_pad {s : List Byte} {start n : Nat} {nb : BitVec 4} (hnb : nb.toNat = n) (hn : n ≤ 8)
    (hfit : start + n ≤ s.length) : dataBytes nb (pad (spanAt s start) n) = (s.drop start).take n := by
  subst hnb
  refine dataBytes_eq_take hfit fun j hj => ?_
  rw [pad, byteOf_leWord _ (by omega), Vector.getElem_ofFn, if_pos hj]
  exact spanAt_getElem s start (by omega)

/-- The bytes of the first `q` words of a stream are its first `8*q` bytes. -/
theorem flatMap_streamWord (s : List Byte) {q : Nat} (hfit : 8 * q ≤ s.length) :
    (List.range q).flatMap (fun k => dataBytes 8 (streamWord s k)) = s.take (8 * q) := by
  induction q with
  | zero => rfl
  | succ q ih =>
    rw [List.range_succ, List.flatMap_append, List.flatMap_singleton, ih (by omega), dataBytes_streamWord (by omega),
      ← List.take_add]
    rfl

/-- The bytes past the last whole word are fewer than eight, so their number is their byte count. -/
theorem restCount_toNat (s : List Byte) : (BitVec.ofNat 4 (s.length % 8)).toNat = s.length % 8 := by
  rw [BitVec.toNat_ofNat]
  omega

theorem encode_absorb_cmd_toNat (nb : BitVec 4) (data : Word) :
    (encode (.absorb nb data)).cmd.toNat = 32 + nb.toNat := by
  rw [encode, BitVec.toNat_append, ← Nat.shiftLeft_add_eq_or_of_lt nb.isLt]
  rfl

theorem isAbsorb_encode {nb : BitVec 4} (hnb : nb.toNat ≤ 8) (data : Word) :
    isAbsorb (encode (.absorb nb data)) = true := by
  rw [isAbsorb, encode_absorb_cmd_toNat, decide_eq_true_eq]
  omega

theorem commandBytes_encode {nb : BitVec 4} (hnb : nb.toNat ≤ 8) (data : Word) :
    commandBytes (encode (.absorb nb data)) = dataBytes nb data := by
  have hfield : nbField (encode (.absorb nb data)).cmd = nb := by
    rw [nbField_eq_iff, encode_absorb_cmd_toNat]
    omega
  rw [commandBytes, verdict_of_isAbsorb (isAbsorb_encode hnb data), hfield]
  rfl

/-- The rest of ABSORBS, by its cases: no byte is left and the stream is empty, no byte is left, or some are. -/
theorem absorbsRest_cases (s : List Byte) :
    (s = [] ∧ absorbsRest s = [.absorb 0 0]) ∨
      (s ≠ [] ∧ s.length % 8 = 0 ∧ absorbsRest s = []) ∨
      (s.length % 8 ≠ 0 ∧
        absorbsRest s = [.absorb (BitVec.ofNat 4 (s.length % 8))
          (pad (spanAt s (8 * (s.length / 8))) (s.length % 8))]) := by
  by_cases hrest : s.length % 8 = 0
  · by_cases hs : s = []
    · exact .inl ⟨hs, by rw [hs]; rfl⟩
    · exact .inr (.inl ⟨hs, hrest, by simp [absorbsRest, hrest, hs]⟩)
  · exact .inr (.inr ⟨hrest, by simp [absorbsRest, hrest]⟩)

/-- Rule R88: every instruction of the expansion is an ABSORB with a legal byte count. -/
theorem mem_absorbsExpansion {s : List Byte} {i : Instr} (hi : i ∈ absorbsExpansion s) :
    ∃ nb data, i = .absorb nb data ∧ nb.toNat ≤ 8 := by
  rw [absorbsExpansion, List.mem_append, List.mem_map] at hi
  obtain ⟨w, _, rfl⟩ | hi := hi
  · exact ⟨8, w, rfl, Nat.le_refl 8⟩
  · obtain ⟨_, e⟩ | ⟨_, _, e⟩ | ⟨_, e⟩ := absorbsRest_cases s <;> rw [e] at hi
    · exact ⟨0, 0, List.mem_singleton.mp hi, Nat.zero_le 8⟩
    · cases hi
    · refine ⟨_, _, List.mem_singleton.mp hi, ?_⟩
      rw [restCount_toNat]
      omega

theorem streamOf_fullAbsorbs (s : List Byte) :
    streamOf (((streamWords s).map (Instr.absorb 8)).map encode) = s.take (8 * (s.length / 8)) := by
  rw [streamOf, streamWords, List.map_map, List.map_map, List.flatMap_map, ← flatMap_streamWord s (by omega)]
  exact List.flatMap_congr fun k _ => commandBytes_encode (nb := 8) (Nat.le_refl 8) (streamWord s k)

theorem streamOf_absorbsRest (s : List Byte) :
    streamOf ((absorbsRest s).map encode) = s.drop (8 * (s.length / 8)) := by
  obtain ⟨rfl, e⟩ | ⟨_, hlen, e⟩ | ⟨hlen, e⟩ := absorbsRest_cases s <;> rw [e]
  · rfl
  · exact (List.drop_eq_nil_of_le (by omega)).symm
  · have hcount := restCount_toNat s
    rw [List.map_singleton, streamOf, List.flatMap_singleton, commandBytes_encode (by omega),
      dataBytes_pad hcount (by omega) (by omega), List.take_of_length_le]
    rw [List.length_drop]
    omega

theorem streamOf_append (cs ds : List Command) : streamOf (cs ++ ds) = streamOf cs ++ streamOf ds :=
  List.flatMap_append

theorem streamOf_absorbsExpansion (s : List Byte) : streamOf ((absorbsExpansion s).map encode) = s := by
  rw [absorbsExpansion, List.map_append, streamOf_append, streamOf_fullAbsorbs, streamOf_absorbsRest,
    List.take_append_drop]

theorem absorbsExpansion_length (s : List Byte) :
    (absorbsExpansion s).length = if s = [] then 1 else (s.length + 7) / 8 := by
  have hwords : (streamWords s).length = s.length / 8 := by simp [streamWords]
  rw [absorbsExpansion, List.length_append, List.length_map, hwords]
  obtain ⟨rfl, e⟩ | ⟨hs, hlen, e⟩ | ⟨hlen, e⟩ := absorbsRest_cases s <;> rw [e]
  · rfl
  · rw [if_neg hs, List.length_nil]
    omega
  · have hs : s ≠ [] := by
      rintro rfl
      exact hlen rfl
    rw [if_neg hs, List.length_singleton]
    omega

/-- Settles O45: the words carry the whole words of the stream and the rest the bytes past them. -/
theorem absorbsExpansionCarriesBytes : Obligations.AbsorbsExpansionCarriesBytes := by
  intro bytes
  refine ⟨fun i hi => ?_, streamOf_absorbsExpansion bytes, absorbsExpansion_length bytes⟩
  obtain ⟨nb, data, rfl, hnb⟩ := mem_absorbsExpansion hi
  exact isAbsorb_encode hnb data

theorem wellFormed_of_mem_absorbsExpansion {s : List Byte} {i : Instr} (hi : i ∈ absorbsExpansion s) :
    i.wellFormed = true := by
  obtain ⟨nb, data, rfl, hnb⟩ := mem_absorbsExpansion hi
  exact decide_eq_true hnb

theorem wellFormed_of_mem_hashExpansion {seed : Word} {s : List Byte} {i : Instr} (hi : i ∈ hashExpansion seed s) :
    i.wellFormed = true := by
  rw [hashExpansion, List.mem_cons, List.mem_append, List.mem_singleton] at hi
  obtain rfl | hi | rfl := hi
  · rfl
  · exact wellFormed_of_mem_absorbsExpansion hi
  · rfl

/-- Rule R87's check of an ABSORB line. -/
theorem assembleLine_absorb (nb data : Nat) :
    assembleLine (.absorb nb data) =
      if nb ≤ 8 ∧ data < 2 ^ (8 * nb) then some [.absorb (BitVec.ofNat 4 nb) (BitVec.ofNat 64 data)] else none := rfl

/-- The accepted lines, one case per form of line. -/
theorem wellFormed_of_assembleLine {l : AsmLine} {is : List Instr} (h : assembleLine l = some is) {i : Instr}
    (hi : i ∈ is) : i.wellFormed = true := by
  cases l with
  | nop | finalize =>
    cases h
    rw [List.mem_singleton.mp hi]
    rfl
  | init seed =>
    obtain ⟨w, _, rfl⟩ := Option.map_eq_some_iff.mp h
    rw [List.mem_singleton.mp hi]
    rfl
  | absorb nb data =>
    obtain ⟨⟨hnb, _⟩, e⟩ := Option.ite_none_right_eq_some.mp h
    cases e
    rw [List.mem_singleton.mp hi]
    refine decide_eq_true ?_
    rw [BitVec.toNat_ofNat]
    omega
  | absorbs bytes =>
    cases h
    exact wellFormed_of_mem_absorbsExpansion hi
  | hash seed bytes =>
    obtain ⟨w, _, rfl⟩ := Option.map_eq_some_iff.mp h
    exact wellFormed_of_mem_hashExpansion hi

/-- Settles O54: each form of line gives well-formed instructions, and an ABSORB line is accepted by its check alone. -/
theorem assembledLinesAreWellFormed : Obligations.AssembledLinesAreWellFormed := by
  refine ⟨fun l is h i hi => wellFormed_of_assembleLine h hi, fun nb data => ?_⟩
  rw [assembleLine_absorb]
  split_ifs with hfits
  · exact ⟨fun _ => hfits, fun _ => Option.some_ne_none _⟩
  · exact ⟨fun h => absurd rfl h, fun h => absurd h hfits⟩

end Sys2Proof.Machine
end

section
/-! ABSORBs seen through their stream (40_hash_core.md rules R120, R121 and R123): a live block makes of them what it
makes of the bytes they carry, so the way the stream is cut into commands is lost. -/

namespace Sys2Proof.Machine

/-- The context after the bytes of a stream, whatever commands carried them: the length grows by their number, and each
is absorbed in order. -/
def absorbStream (P : Params) (bytes : List Byte) (k : Context) : Context :=
  absorbBytes P bytes (k.setTotalLen (k.totalLen + BitVec.ofNat 64 bytes.length))

theorem absorbContext_eq_absorbStream (P : Params) (nb : BitVec 4) (data : Word) (k : Context) :
    absorbContext P nb data k = absorbStream P (dataBytes nb data) k := by
  rw [absorbContext, absorbStream, dataBytes_length, BitVec.ofNat_toNat]

theorem absorbStream_nil (P : Params) (k : Context) : absorbStream P [] k = k := by
  rw [absorbStream, absorbBytes_nil, List.length_nil, BitVec.add_zero]
  rfl

/-- The length takes no part in the byte step, so it may be added first for the whole stream. -/
theorem absorbStream_append (P : Params) (bs cs : List Byte) (k : Context) :
    absorbStream P (bs ++ cs) k = absorbStream P cs (absorbStream P bs k) := by
  simp only [absorbStream, absorbBytes_setTotalLen, absorbBytes_append, List.length_append, BitVec.ofNat_add,
    Context.setTotalLen_totalLen, BitVec.add_assoc]
  rfl

/-- Absorbed bytes keep the closed form of rule R121, over the stream with them added. -/
theorem absorbStream_contextOf {P : Params} {i : ContextInput} {k : Context} (h : ContextOf P i k) (bytes : List Byte) :
    ContextOf P { i with stream := i.stream ++ bytes } (absorbStream P bytes k) := by
  refine ⟨absorbBytes_holdsStream (setTotalLen_holdsStream h.toHoldsStream _) bytes, ?_⟩
  rw [absorbStream, absorbBytes_totalLen, Context.setTotalLen_totalLen, h.totalLen, List.length_append,
    BitVec.ofNat_add]

/-- A legal ABSORB absorbs the bytes it carries and changes nothing but the context. -/
theorem runCommand_of_isAbsorb {c : Command} (hc : isAbsorb c = true) {s : State} (herr : s.err = false)
    (hact : s.active = true) :
    runCommand c s = .next (s.setCtx (absorbStream Config.params (commandBytes c) s.ctx)) := by
  have hv := verdict_of_isAbsorb hc
  rw [runCommand_eq_transition, commandTransition_of_absorb hv herr hact, absorbContext_eq_absorbStream, commandBytes,
    hv]

/-- Legal ABSORBs on a live block absorb their stream, and the block sees nothing else of them. -/
theorem runCommands_absorbs {cs : List Command} (hcs : ∀ c ∈ cs, isAbsorb c = true) {s : State}
    (herr : s.err = false) (hact : s.active = true) :
    runCommands cs s = .next (s.setCtx (absorbStream Config.params (streamOf cs) s.ctx)) := by
  induction cs generalizing s with
  | nil =>
    have hnone : absorbStream Config.params (streamOf []) s.ctx = s.ctx := absorbStream_nil _ _
    rw [hnone, State.setCtx_self, runCommands]
  | cons c cs ih =>
    obtain ⟨hc, hrest⟩ := List.forall_mem_cons.mp hcs
    have hstream : streamOf (c :: cs) = commandBytes c ++ streamOf cs := List.flatMap_cons
    rw [runCommands_cons_next (runCommand_of_isAbsorb hc herr hact), ih hrest, hstream, absorbStream_append]
    · rfl
    · exact herr
    · exact hact

/-- Settles O40: both sequences absorb the same stream. -/
theorem partitionIndependence : Obligations.PartitionIndependence := by
  intro cs ds s hcs hds hstream herr hact
  refine ⟨_, runCommands_absorbs hcs herr hact, ?_⟩
  rw [runCommands_absorbs hds herr hact, hstream]

/-- The block after an accepted INIT (rule R111): a new context with an empty stream. -/
def startContext (seed : Word) (s : State) : State :=
  (s.setCtx (((s.ctx.setLane (laneInit Config.params seed)).setBuffer s.ctx.buf 0).setTotalLen 0)).setLife true false

theorem exec_init_of_noErr {s : State} (herr : s.err = false) (seed : Word) :
    exec (.init seed) s = .next (startContext seed s) := by
  rw [exec_init, initCommand_of_noErr herr, startContext]

theorem verdict_init : verdict 0x10 = .init := by decide

theorem runCommand_init {s : State} (herr : s.err = false) (seed : Word) :
    runCommand ⟨0x10, seed⟩ s = .next (startContext seed s) := by
  rw [runCommand_eq_transition, commandTransition_of_init (c := ⟨0x10, seed⟩) verdict_init herr, startContext]

/-- The block after an INIT and the bytes of a stream. -/
def streamState (seed : Word) (bytes : List Byte) (s : State) : State :=
  (startContext seed s).setCtx (absorbStream Config.params bytes (startContext seed s).ctx)

theorem runCommands_init_absorbs {cs : List Command} (hcs : ∀ c ∈ cs, isAbsorb c = true) {s : State}
    (herr : s.err = false) (seed : Word) :
    runCommands (⟨0x10, seed⟩ :: cs) s = .next (streamState seed (streamOf cs) s) := by
  rw [runCommands_cons_next (runCommand_init herr seed)]
  exact runCommands_absorbs hcs herr rfl

/-- The context after INIT and a stream is the closed form of rule R121. -/
theorem streamState_contextOf (seed : Word) (bytes : List Byte) (s : State) :
    ContextOf Config.params ⟨seed, bytes⟩ (streamState seed bytes s).ctx :=
  absorbStream_contextOf (contextOf_init Config.params seed s.ctx) bytes

/-- Settles O43: the four lines of rule R121 are the closed form. -/
theorem streamClosedForm : Obligations.StreamClosedForm := by
  intro seed cs s hcs herr
  have hk := streamState_contextOf seed (streamOf cs) s
  exact ⟨_, runCommands_init_absorbs hcs herr seed, hk.lane, hk.bufCnt, hk.valid, hk.totalLen⟩

/-- The block after an accepted FINALIZE (rule R147): the context is consumed and its digest is valid. -/
def finishContext (s : State) : State :=
  ((s.setCtx ((s.ctx.setLane (finalLanes Config.params s.ctx)).setBuffer s.ctx.buf 0)).setDigest
    (serialize (finalLanes Config.params s.ctx))).setLife false true

theorem finishContext_digest (s : State) :
    (finishContext s).digest = serialize (finalLanes Config.params s.ctx) := rfl

theorem verdict_finalize : verdict 0x30 = .finalize := by decide

theorem runCommand_finalize {s : State} (herr : s.err = false) (hact : s.active = true) (data : Word) :
    runCommand ⟨0x30, data⟩ s = .next (finishContext s) := by
  rw [runCommand_verdict, verdict_finalize]
  dsimp only
  rw [finalizeCommand, unlessErr_of_noErr herr, withContext_of_active hact, finishContext]

/-- The block after INIT, the bytes of a stream and FINALIZE. -/
def digestState (seed : Word) (bytes : List Byte) (s : State) : State := finishContext (streamState seed bytes s)

theorem runCommands_init_absorbs_finalize {cs : List Command} (hcs : ∀ c ∈ cs, isAbsorb c = true) {s : State}
    (herr : s.err = false) (seed data : Word) :
    runCommands (⟨0x10, seed⟩ :: (cs ++ [⟨0x30, data⟩])) s = .next (digestState seed (streamOf cs) s) := by
  have hfinal := runCommand_finalize (s := streamState seed (streamOf cs) s) herr rfl data
  rw [← List.cons_append, runCommands_append (runCommands_init_absorbs hcs herr seed), runCommands_cons_next hfinal,
    runCommands, digestState]

/-- The digest that FINALIZE leaves is the `H(seed, s)` of rule R148. -/
theorem digestState_digest (seed : Word) (bytes : List Byte) (s : State) :
    (digestState seed bytes s).digest = hashDigest Config.params seed bytes := by
  rw [digestState, finishContext_digest, finalLanes_of_contextOf (streamState_contextOf seed bytes s), hashDigest]

theorem readDigest_digestState {s : State} (hbusy : s.busy = false) (seed : Word) (bytes : List Byte) :
    readDigest (digestState seed bytes s) = .ok (digestBits (hashDigest Config.params seed bytes)) := by
  rw [← digestState_digest seed bytes s]
  exact (digestReadNeedsValid _).1 hbusy rfl

/-- HASH is an INIT, the ABSORBs of its bytes and a FINALIZE (30_encoding.md rule R89). -/
theorem runCommands_hashExpansion {s : State} (herr : s.err = false) (seed : Word) (bytes : List Byte) :
    runCommands ((hashExpansion seed bytes).map encode) s = .next (digestState seed bytes s) := by
  have habs : ∀ c ∈ (absorbsExpansion bytes).map encode, isAbsorb c = true :=
    List.forall_mem_map.mpr (absorbsExpansionCarriesBytes bytes).1
  have hrun := runCommands_init_absorbs_finalize habs herr seed 0
  rw [streamOf_absorbsExpansion] at hrun
  rw [hashExpansion, List.map_cons, List.map_append]
  exact hrun

/-- Settles O46: HASH and any other run leave the digest of the stream. -/
theorem oneShotHashDigest : Obligations.OneShotHashDigest := by
  intro seed bytes s herr hbusy
  refine ⟨_, runCommands_hashExpansion herr seed bytes, readDigest_digestState hbusy seed bytes, rfl, herr, ?_⟩
  rintro cs data hcs rfl
  exact ⟨_, runCommands_init_absorbs_finalize hcs herr seed data, rfl⟩

end Sys2Proof.Machine
end

section
/-! The words and the mix of hash_core (40_hash_core.md rules R101, R105 to R107, R122). -/

namespace Sys2Proof.Machine

/-- Settles O7: packing the bytes and reading them back, both ways. -/
theorem littleEndianWordRoundTrip : Obligations.LittleEndianWordRoundTrip :=
  ⟨fun b j => byteOf_leWord b j.isLt, leWord_bytes, by decide⟩

/-- An odd word has an inverse for the product modulo 2^64. -/
theorem exists_mul_eq_one_of_odd {c : Word} (h : c.getLsbD 0 = true) : ∃ d : Word, c * d = 1 := by
  have hodd : Odd c.toNat := by
    rw [BitVec.getLsbD, Nat.testBit_zero, decide_eq_true_eq] at h
    exact Nat.odd_iff.mpr h
  have hcop : c.toNat.Coprime (2 ^ 64) := (Nat.coprime_two_right.mpr hodd).pow_right 64
  obtain ⟨d, -, hd⟩ := Nat.exists_mul_mod_eq_one_of_coprime hcop (by norm_num)
  refine ⟨BitVec.ofNat 64 d, BitVec.eq_of_toNat_eq ?_⟩
  rw [BitVec.toNat_mul, BitVec.toNat_ofNat, Nat.mul_mod_mod, hd]
  rfl

theorem rotr_zero_word (n : Nat) : rotr 0#64 n = 0#64 := by
  simp [rotr]

/-- A rotation only moves bits, so all ones stay all ones. -/
theorem rotr_allOnes {n : Nat} (hn : n < 64) : rotr (BitVec.allOnes 64) n = BitVec.allOnes 64 := by
  apply BitVec.eq_of_getLsbD_eq
  intro i hi
  rw [getLsbD_rotr _ hn hi, BitVec.getLsbD_allOnes, BitVec.getLsbD_allOnes, decide_eq_true hi,
    decide_eq_true (Nat.mod_lt _ (by decide))]

/-- The mix of a word whose product is sent to 0 by the first rotation stage. -/
theorem mix_eq_zero {P : Params} {lane word c : Word}
    (h : (lane ^^^ word) * c = rotr ((lane ^^^ word) * c) mixRot1) : mix P lane word c = 0#64 := by
  simp only [mix, BitVec.xor_eq_zero_iff.mpr h, BitVec.zero_mul, rotr_zero_word, BitVec.xor_self]

theorem mix_self (P : Params) (x c : Word) : mix P x x c = 0#64 := by
  apply mix_eq_zero
  rw [BitVec.xor_self, BitVec.zero_mul, rotr_zero_word]

theorem mix_of_mul_eq_allOnes {P : Params} {x c : Word} (h : x * c = BitVec.allOnes 64) : mix P x 0#64 c = 0#64 := by
  apply mix_eq_zero
  rw [BitVec.xor_zero, h, rotr_allOnes (by decide)]

/-- An odd constant sends some lane to all ones: the negative of its inverse. -/
theorem exists_mul_eq_allOnes {c : Word} (h : c.getLsbD 0 = true) : ∃ x : Word, x * c = BitVec.allOnes 64 := by
  obtain ⟨d, hd⟩ := exists_mul_eq_one_of_odd h
  refine ⟨-d, ?_⟩
  rw [BitVec.neg_mul, BitVec.mul_comm, hd]
  rfl

/-- Settles O10: the lane whose product with the constant is all ones is sent to 0, as the lane 0 is. -/
theorem mixIsNotInjective : Obligations.MixIsNotInjective := by
  refine fun P => ⟨mix_self P, fun i => ?_⟩
  obtain ⟨x, hx⟩ := exists_mul_eq_allOnes (P.kc_odd i)
  refine ⟨x, ?_, hx, mix_of_mul_eq_allOnes hx, mix_self P 0 _⟩
  rintro rfl
  exact absurd (BitVec.zero_mul.symm.trans hx) (by decide)

/-- Steps of `n` around the word reach every bit from bit 0 when `n` is odd. -/
theorem exists_steps_to_bit {n : Nat} (h : n.Coprime 64) (i : Nat) : ∃ k, k * n % 64 = i % 64 := by
  obtain ⟨m, -, hm⟩ := Nat.exists_mul_mod_eq_one_of_coprime h (by decide)
  refine ⟨i * m, ?_⟩
  rw [Nat.mul_assoc, Nat.mul_comm m n, Nat.mul_mod, hm, Nat.mul_one, Nat.mod_mod]

/-- A word that a rotation leaves as it is repeats every bit at each step. -/
theorem getLsbD_of_rotr_eq {x : Word} {n : Nat} (hn : n < 64) (h : x = rotr x n) (k : Nat) :
    x.getLsbD (k * n % 64) = x.getLsbD 0 := by
  induction k with
  | zero => rw [Nat.zero_mul, Nat.zero_mod]
  | succ k ih =>
    have hstep := getLsbD_rotr x hn (Nat.mod_lt (k * n) (by decide : 0 < 64))
    rw [← h, ih, Nat.mod_add_mod, ← Nat.succ_mul] at hstep
    exact hstep.symm

/-- Only the two constant words are the same after a rotation by an odd amount. -/
theorem eq_rotr_iff {x : Word} {n : Nat} (hn : n < 64) (hcop : n.Coprime 64) :
    x = rotr x n ↔ x = 0#64 ∨ x = BitVec.allOnes 64 := by
  constructor
  · intro h
    have hconst : ∀ i < 64, x.getLsbD i = x.getLsbD 0 := by
      intro i hi
      obtain ⟨k, hk⟩ := exists_steps_to_bit hcop i
      rw [← getLsbD_of_rotr_eq hn h k, hk, Nat.mod_eq_of_lt hi]
    cases h0 : x.getLsbD 0 with
    | false => exact .inl (BitVec.eq_of_getLsbD_eq fun i hi => by rw [hconst i hi, h0, BitVec.getLsbD_zero])
    | true =>
      refine .inr (BitVec.eq_of_getLsbD_eq fun i hi => ?_)
      rw [hconst i hi, h0, BitVec.getLsbD_allOnes, decide_eq_true hi]
  · rintro (rfl | rfl)
    · exact (rotr_zero_word n).symm
    · exact (rotr_allOnes hn).symm

/-- Settles O11: the two words a stage sends to 0 are those its rotation leaves as they are. -/
theorem rotationStageKernel : Obligations.RotationStageKernel :=
  fun _ => ⟨BitVec.xor_eq_zero_iff.trans (eq_rotr_iff (by decide) (by decide)),
    BitVec.xor_eq_zero_iff.trans (eq_rotr_iff (by decide) (by decide))⟩

/-- The number of 1 bits of a word. -/
def onesCount (x : Word) : Nat := (List.range 64).countP fun b => x.getLsbD b

/-- The bits of two lists of flags: those set in exactly one, and twice those set in both. -/
theorem countP_xor {α : Type} (p q : α → Bool) (l : List α) :
    l.countP (fun a => p a ^^ q a) + 2 * l.countP (fun a => p a && q a) = l.countP p + l.countP q := by
  induction l with
  | nil => rfl
  | cons a l ih =>
    simp only [List.countP_cons]
    cases p a <;> cases q a <;> simp <;> omega

/-- A rotation permutes the bits. -/
theorem onesCount_rotr (x : Word) {n : Nat} (hn : n < 64) : onesCount (rotr x n) = onesCount x := by
  have hplaces : (List.range 64).map (fun i => (i + n) % 64) = (List.range 64).rotate n := by
    apply List.ext_getElem
    · simp
    · intro i _ _
      simp [List.getElem_rotate]
  calc onesCount (rotr x n) = (List.range 64).countP (fun i => x.getLsbD ((i + n) % 64)) :=
        List.countP_congr fun i hi => by rw [getLsbD_rotr x hn (List.mem_range.mp hi)]
    _ = ((List.range 64).map fun i => (i + n) % 64).countP (fun b => x.getLsbD b) := List.countP_map.symm
    _ = onesCount x := by rw [hplaces]; exact (List.rotate_perm _ n).countP_eq _

/-- A rotation stage sets an even number of bits: those of the word and of its rotation, but the common ones twice. -/
theorem even_onesCount_xor_rotr (x : Word) {n : Nat} (hn : n < 64) : Even (onesCount (x ^^^ rotr x n)) := by
  have hxor := countP_xor (fun b => x.getLsbD b) (fun b => (rotr x n).getLsbD b) (List.range 64)
  have hrot := onesCount_rotr x hn
  have hbits : onesCount (x ^^^ rotr x n) = (List.range 64).countP fun b => x.getLsbD b ^^ (rotr x n).getLsbD b := by
    simp only [onesCount, BitVec.getLsbD_xor]
  rw [← hbits] at hxor
  simp only [onesCount] at hrot hxor ⊢
  rw [Nat.even_iff]
  omega

/-- Settles O12: the mix ends with a rotation stage. -/
theorem mixHasEvenParity : Obligations.MixHasEvenParity :=
  fun _ _ _ _ => even_onesCount_xor_rotr _ (n := mixRot2) (by decide)

/-- Settles O13: the lane update lane by lane, and the mix written out. -/
theorem laneUpdateMixesEveryLane : Obligations.LaneUpdateMixesEveryLane := by
  intro P w lane i
  rw [Fin.getElem_fin, laneUpdate_getElem]
  rfl

/-- Settles O14: with the constants 1, 3, 5, 7 and zero lanes, the words 0 and 1 in the two orders. -/
theorem wordOrderMatters : Obligations.WordOrderMatters :=
  ⟨Params.witness, Vector.replicate 4 0, 0, 1, by decide⟩

end Sys2Proof.Machine
end

section
/-! NOP, INIT and ABSORB: what each changes and leaves unchanged (40_hash_core.md rules R110 to R112). -/

namespace Sys2Proof.Machine

theorem runCommand_nop (data : Word) (s : State) : runCommand ⟨0x00, data⟩ s = .next s := by
  have hv : verdict 0x00 = .nop := by decide
  rw [runCommand_verdict, hv]

/-- Settles O15: the two forms of NOP, and the byte counts 1 to 15 of its opcode. -/
theorem nopChangesNothing : Obligations.NopChangesNothing := by
  refine fun s data => ⟨exec_nop s, runCommand_nop data s, fun cmd hlo hhi herr => ?_⟩
  have hcount : illegalByteCount cmd = true := decide_eq_true (by omega)
  exact illegalByteCountRaises ⟨cmd, data⟩ s herr hcount

theorem startContext_lane (seed : Word) (s : State) (i : Fin 4) :
    (startContext seed s).ctx.lane[i] = seed ^^^ Config.params.kc i :=
  laneInit_getElem Config.params seed i.val i.isLt

/-- `STATUS` of a new context: `ACTIVE` alone, where no error code stands and the block is ready. -/
theorem statusWord_startContext {s : State} (herr : s.err = false) (hcode : s.errCode = 0) (hbusy : s.busy = false)
    (seed : Word) : statusWord (startContext seed s) = 0x0001 := by
  have herr' : (startContext seed s).err = false := herr
  have hcode' : (startContext seed s).errCode = 0 := hcode
  have hbusy' : (startContext seed s).busy = false := hbusy
  have hactive : (startContext seed s).active = true := rfl
  have hvalid : (startContext seed s).digestValid = false := rfl
  rw [statusWord, herr', hcode', hbusy', hactive, hvalid]
  decide

/-- Settles O16: INIT is discarded or starts a context, and the byte counts 1 to 15 of its opcode are illegal. -/
theorem initStartsContext : Obligations.InitStartsContext := by
  refine fun seed s => ⟨fun herr => ?_, fun herr => ?_, fun herr cmd hlo hhi => ?_⟩
  · rw [exec_init, initCommand, unlessErr_of_err herr]
  · exact ⟨startContext seed s, exec_init_of_noErr herr seed, runCommand_init herr seed, startContext_lane seed s,
      rfl, rfl, rfl, rfl, rfl, rfl, herr, rfl, rfl, rfl,
      fun hcode hbusy => statusWord_startContext herr hcode hbusy seed⟩
  · have hcount : illegalByteCount cmd = true := decide_eq_true (by omega)
    exact illegalByteCountRaises ⟨cmd, seed⟩ s herr hcount

/-- Bytes that complete no word join the valid bytes. -/
theorem absorbBytes_partial (P : Params) (bs : List Byte) {k : Context} (h : (validBytes k ++ bs).length < 8) :
    (absorbBytes P bs k).lane = k.lane ∧ validBytes (absorbBytes P bs k) = validBytes k ++ bs := by
  induction bs generalizing k with
  | nil => exact ⟨rfl, (List.append_nil _).symm⟩
  | cons b bs ih =>
    rw [List.append_cons] at h ⊢
    obtain ⟨_, hvalid, hlane⟩ | ⟨h7, _, _⟩ := absorbByte_valid P k b
    · rw [← hvalid] at h ⊢
      rw [← hlane]
      exact ih h
    · simp only [List.length_append, validBytes_length, List.length_singleton] at h
      omega

/-- Bytes that complete one word and no second: the first eight valid and new bytes are the word, and the rest is left
in the buffer. -/
theorem absorbBytes_oneWord (P : Params) (bs : List Byte) {k : Context} (h : 8 ≤ (validBytes k ++ bs).length)
    (h16 : (validBytes k ++ bs).length < 16) :
    (absorbBytes P bs k).lane = laneUpdate P (leWord (spanAt (validBytes k ++ bs) 0)) k.lane ∧
      validBytes (absorbBytes P bs k) = (validBytes k ++ bs).drop 8 := by
  induction bs generalizing k with
  | nil =>
    have := k.bufCnt.isLt
    rw [List.append_nil, validBytes_length] at h
    omega
  | cons b bs ih =>
    rw [List.append_cons] at h h16 ⊢
    obtain ⟨_, hvalid, hlane⟩ | ⟨h7, hempty, hlane⟩ := absorbByte_valid P k b
    · rw [← hvalid] at h h16 ⊢
      rw [← hlane]
      exact ih h h16
    · have hword : (validBytes k ++ [b]).length = 8 := by
        rw [List.length_append, validBytes_length, h7, List.length_singleton]
      have hrest : (validBytes (absorbByte P k b) ++ bs).length < 8 := by
        rw [List.length_append, hword] at h16
        rw [hempty, List.nil_append]
        omega
      have hspan : spanAt (validBytes k ++ [b] ++ bs) 0 = spanAt (validBytes k ++ [b]) 0 :=
        spanAt_append _ bs 0 (Nat.le_of_eq hword.symm)
      obtain ⟨hlane', hvalid'⟩ := absorbBytes_partial P bs hrest
      rw [hempty, List.nil_append] at hvalid'
      rw [absorbBytes_cons, hlane', hlane, hvalid', hspan, List.drop_left' hword]
      exact ⟨rfl, rfl⟩

/-- Rule R112: at most one word is mixed. -/
theorem absorbContext_mixesAtMostOneWord (P : Params) {nb : BitVec 4} (hnb : nb.toNat ≤ 8) (data : Word)
    (k : Context) :
    ((validBytes k ++ dataBytes nb data).length < 8 →
      (absorbContext P nb data k).lane = k.lane ∧
        validBytes (absorbContext P nb data k) = validBytes k ++ dataBytes nb data) ∧
    (8 ≤ (validBytes k ++ dataBytes nb data).length →
      (absorbContext P nb data k).lane =
          laneUpdate P (leWord (spanAt (validBytes k ++ dataBytes nb data) 0)) k.lane ∧
        validBytes (absorbContext P nb data k) = (validBytes k ++ dataBytes nb data).drop 8) := by
  have hlt : (validBytes k ++ dataBytes nb data).length < 16 := by
    have := k.bufCnt.isLt
    rw [List.length_append, validBytes_length, dataBytes_length]
    omega
  exact ⟨fun h => absorbBytes_partial P _ h, fun h => absorbBytes_oneWord P _ h hlt⟩

theorem exec_absorb_of_live {s : State} (herr : s.err = false) (hact : s.active = true) {nb : BitVec 4}
    (hnb : nb.toNat ≤ 8) (data : Word) :
    exec (.absorb nb data) s = .next (s.setCtx (absorbContext Config.params nb data s.ctx)) := by
  rw [exec_absorb, absorbCommand_of_live herr hact _ hnb]

theorem nbField_encode_absorb (nb : BitVec 4) (data : Word) : nbField (encode (.absorb nb data)).cmd = nb := by
  rw [nbField_eq_iff, encode_absorb_cmd_toNat]
  omega

/-- The transfer of a legal ABSORB is the instruction. -/
theorem runCommand_absorb {nb : BitVec 4} (hnb : nb.toNat ≤ 8) (data : Word) (s : State) :
    runCommand ⟨0x2#4 ++ nb, data⟩ s = exec (.absorb nb data) s := by
  have hv := verdict_of_isAbsorb (isAbsorb_encode hnb data)
  rw [nbField_encode_absorb, encode] at hv
  rw [runCommand_verdict, hv, exec_absorb]

/-- ABSORB of no bytes changes nothing, discarded or not. -/
theorem exec_absorb_zero {s : State} (hact : s.active = true) (data : Word) :
    exec (.absorb 0 data) s = .next s := by
  rw [exec_absorb]
  obtain ⟨_, e⟩ | ⟨_, hnb, _⟩ | ⟨_, _, hidle, _⟩ | ⟨_, _, _, e⟩ := absorbCommand_cases Config.params 0 data s
  · rw [e]
  · exact absurd hnb (by decide)
  · rw [hact] at hidle
    cases hidle
  · have hnone : absorbStream Config.params (dataBytes 0 data) s.ctx = s.ctx := absorbStream_nil _ _
    rw [e, absorbContext_eq_absorbStream, hnone, State.setCtx_self]

/-- Settles O17: ABSORB is discarded, raises an error, or absorbs its bytes with at most one word mixed. -/
theorem absorbMixesAtMostOneWord : Obligations.AbsorbMixesAtMostOneWord := by
  intro nb data s hnb
  refine ⟨fun herr => ?_, fun herr hidle => ?_, fun herr hact => ?_, ?_, fun herr cmd hlo hhi => ?_⟩
  · rw [exec_absorb, absorbCommand, unlessErr_of_err herr]
  · rw [exec_absorb, absorbCommand, unlessErr_of_noErr herr, if_pos hnb, withContext_of_inactive hidle,
      raiseErr_of_noErr herr]
    rfl
  · have hlive := exec_absorb_of_live herr hact hnb data
    refine ⟨_, hlive, (runCommand_absorb hnb data s).trans hlive,
      absorbContext_mixesAtMostOneWord Config.params hnb data s.ctx, ?_, hact, rfl, rfl, herr, rfl, rfl, rfl⟩
    rw [State.setCtx_ctx, absorbContext_totalLen, ← BitVec.ofNat_toNat]
  · rintro rfl hact
    exact exec_absorb_zero hact data
  · have hcount : illegalByteCount cmd = true := decide_eq_true (by omega)
    exact illegalByteCountRaises ⟨cmd, data⟩ s herr hcount

/-- Settles O18: with no valid byte in the buffer the one word is that of the eight bytes, which is `DATA`. -/
theorem fullAbsorbMixesDataItself : Obligations.FullAbsorbMixesDataItself := by
  intro data s herr hact hcnt
  have hnone : validBytes s.ctx = [] := by
    rw [validBytes, hcnt]
    rfl
  have hword : leWord (spanAt (dataBytes 8 data) 0) = data := by
    have hspan : spanAt (dataBytes 8 data) 0 = Vector.ofFn fun j => (dataBytes 8 data).getD j.val 0 := by
      simp only [spanAt, Nat.zero_add]
    rw [hspan, leWord_dataBytes_eight]
  have hmix := (absorbContext_mixesAtMostOneWord Config.params (nb := 8) (by decide) data s.ctx).2
  rw [hnone, List.nil_append, dataBytes_length, hword] at hmix
  refine ⟨_, exec_absorb_of_live herr hact (by decide) data, (hmix (by decide)).1, ?_, ?_⟩
  · apply BitVec.eq_of_toNat_eq
    rw [State.setCtx_ctx, absorbContext_bufCnt, hcnt]
    rfl
  · exact absorbContext_totalLen Config.params 8 data s.ctx

end Sys2Proof.Machine
end

section
/-! The finalizer (41_finalizer.md): each lane of its result is made of the same lane, of that lane's constants and of
`KC[0]` (rules R142 to R145), so rules R147 to R149 are read off one lane at a time. -/

namespace Sys2Proof.Machine

/-- Settles O44: FINALIZE leaves the digest of what INIT and the ABSORBs have put into the context. -/
theorem digestOfSeedAndStream : Obligations.DigestOfSeedAndStream := fun seed data cs s hcs herr hbusy =>
  ⟨_, runCommands_init_absorbs_finalize hcs herr seed data, digestState_digest seed (streamOf cs) s,
    readDigest_digestState hbusy seed (streamOf cs)⟩

/-- One avalanche round on one lane (rule R144). -/
def avLane (P : Params) (i : Fin 4) (x : Word) : Word := (x * P.kc i) ^^^ rotr x (avRot i)

/-- The rounds of rule R145 on one lane. -/
theorem avalanche_lane (P : Params) (lane : Vector Word 4) (i : Fin 4) :
    (avalanche P lane)[i] = (avLane P i)^[avRounds] lane[i] := by
  have hround : Function.Semiconj (fun l : Vector Word 4 => l[i]) (avRound P) (avLane P i) :=
    fun l => avRound_getElem P l i.val i.isLt
  exact hround.iterate_right avRounds lane

/-- Steps 2 and 3 of the finalizer on one lane. -/
theorem avalanche_foldLength_lane (P : Params) (len : Word) (lane : Vector Word 4) (i : Fin 4) :
    (avalanche P (foldLength len lane))[i] = (avLane P i)^[avRounds] (lane[i] ^^^ rotr len (lenRot i)) :=
  (avalanche_lane P _ i).trans (congrArg _ (foldLength_getElem len lane i.val i.isLt))

/-- Digest byte `8i + j` is byte `j` of lane `i` (rule R146). -/
theorem serialize_lane (lane : Vector Word 4) (i : Fin 4) (j : Fin 8) :
    (serialize lane)[8 * i.val + j.val] = byteOf lane[i] j.val := by
  have hlane : (8 * i.val + j.val) / 8 = i.val := by omega
  have hbyte : (8 * i.val + j.val) % 8 = j.val := by omega
  simp only [serialize_getElem, hlane, hbyte, Fin.getElem_fin]

theorem hashDigest_lane (P : Params) (seed : Word) (bytes : List Byte) (i : Fin 4) (j : Fin 8) :
    (hashDigest P seed bytes)[8 * i.val + j.val] = byteOf (hashLanes P seed bytes)[i] j.val :=
  serialize_lane (hashLanes P seed bytes) i j

/-- The finalized lanes of rule R148, on one lane. -/
theorem hashLanes_lane (P : Params) (seed : Word) (bytes : List Byte) (i : Fin 4) :
    (hashLanes P seed bytes)[i] =
      (avLane P i)^[avRounds]
        ((streamTail P bytes (streamLanes P seed bytes))[i] ^^^ rotr (BitVec.ofNat 64 bytes.length) (lenRot i)) :=
  avalanche_foldLength_lane P _ _ i

/-! ### FINALIZE -/

/-- Step 1 of the finalizer on one lane (rule R142). -/
theorem absorbTail_lane (P : Params) (k : Context) (i : Fin 4) :
    (absorbTail P k)[i] =
      if k.bufCnt = 0 then k.lane[i]
      else mix P k.lane[i] (rotr (pad k.buf k.bufCnt.toNat) (P.wrot i).val) (P.kc i) := by
  rw [absorbTail]
  split
  · rfl
  · exact laneUpdate_getElem P _ k.lane i.val i.isLt

/-- The finalizer on one lane, its three steps in the order of rule R140. -/
theorem finalLanes_lane (P : Params) (k : Context) (i : Fin 4) :
    (finalLanes P k)[i] =
      (avLane P i)^[avRounds]
        ((if k.bufCnt = 0 then k.lane[i]
          else mix P k.lane[i] (rotr (pad k.buf k.bufCnt.toNat) (P.wrot i).val) (P.kc i)) ^^^
          rotr k.totalLen (lenRot i)) := by
  rw [finalLanes, avalanche_foldLength_lane, absorbTail_lane]

theorem exec_finalize_of_live {s : State} (herr : s.err = false) (hact : s.active = true) :
    exec .finalize s = .next (finishContext s) :=
  (runCommand_of_decode (c := ⟨0x30, 0⟩) rfl s).symm.trans (runCommand_finalize herr hact 0)

/-- Settles O20: FINALIZE is discarded, raises `NO_CONTEXT`, or finalizes each lane of the live context. -/
theorem finalizeProducesDigest : Obligations.FinalizeProducesDigest := by
  refine fun s data => ⟨fun herr => ?_, fun herr hidle => ?_, fun herr hact => ?_, fun herr cmd hlo hhi => ?_⟩
  · rw [exec_finalize, finalizeCommand, unlessErr_of_err herr]
  · rw [exec_finalize, finalizeCommand, unlessErr_of_noErr herr, withContext_of_inactive hidle,
      raiseErr_of_noErr herr]
    rfl
  · exact ⟨finishContext s, exec_finalize_of_live herr hact, runCommand_finalize herr hact data,
      finalLanes_lane Config.params s.ctx, fun k => serialize_getElem _ k.val k.isLt,
      rfl, rfl, rfl, rfl, rfl, herr, rfl, rfl, rfl⟩
  · have hcount : illegalByteCount cmd = true := decide_eq_true (by omega)
    exact illegalByteCountRaises ⟨cmd, data⟩ s herr hcount

/-- Settles O36: of the effects of a command only that of FINALIZE writes the digest, and only that of INIT makes a
context live. -/
theorem oneDigestPerContext : Obligations.OneDigestPerContext := by
  intro c s t hrun
  cases commandEffect_of_runCommand hrun with
  | unchanged _ => simp +contextual
  | raised _ _ => simp +contextual
  | started hv _ => simp [hv]
  | absorbed _ _ _ hact => simp +contextual [hact]
  | finalized hv _ hact => simp [hv, hact]

/-! ### The parameters a lane depends on (rule R149) -/

/-- Two parameter sets that give lane `i` the same constants. -/
structure SameLaneParams (P Q : Params) (i : Fin 4) : Prop where
  kc_zero : P.kc 0 = Q.kc 0
  kc : P.kc i = Q.kc i
  wrot : P.wrot i = Q.wrot i

/-- The mix reads no parameter but `KC[0]`. -/
theorem mix_congr_params {P Q : Params} (h : P.kc 0 = Q.kc 0) (lane word c : Word) :
    mix P lane word c = mix Q lane word c := by
  rw [mix, mix, h]

theorem laneUpdate_sameLane {P Q : Params} {i : Fin 4} (h : SameLaneParams P Q i) (w : Word) {l m : Vector Word 4}
    (hlane : l[i] = m[i]) : (laneUpdate P w l)[i] = (laneUpdate Q w m)[i] := by
  simp only [Fin.getElem_fin] at hlane ⊢
  rw [laneUpdate_getElem, laneUpdate_getElem, hlane, h.kc, h.wrot, mix_congr_params h.kc_zero]

theorem streamLanes_sameLane {P Q : Params} {i : Fin 4} (h : SameLaneParams P Q i) (seed : Word) (bytes : List Byte) :
    (streamLanes P seed bytes)[i] = (streamLanes Q seed bytes)[i] := by
  refine List.foldl_rel (r := fun l m : Vector Word 4 => l[i] = m[i]) ?_ fun w _ _ _ => laneUpdate_sameLane h w
  simp only [Fin.getElem_fin, laneInit_getElem, h.kc]

theorem streamTail_sameLane {P Q : Params} {i : Fin 4} (h : SameLaneParams P Q i) (bytes : List Byte)
    {l m : Vector Word 4} (hlane : l[i] = m[i]) : (streamTail P bytes l)[i] = (streamTail Q bytes m)[i] := by
  rw [streamTail, streamTail]
  split
  · exact hlane
  · exact laneUpdate_sameLane h _ hlane

theorem hashLanes_sameLane {P Q : Params} {i : Fin 4} (h : SameLaneParams P Q i) (seed : Word) (bytes : List Byte) :
    (hashLanes P seed bytes)[i] = (hashLanes Q seed bytes)[i] := by
  have hround : avLane P i = avLane Q i := funext fun x => by rw [avLane, avLane, h.kc]
  rw [hashLanes_lane, hashLanes_lane, hround, streamTail_sameLane h bytes (streamLanes_sameLane h seed bytes)]

/-- The avalanche keeps a zero lane. -/
theorem avLane_zero (P : Params) (i : Fin 4) : avLane P i 0#64 = 0#64 := by
  rw [avLane, BitVec.zero_mul, rotr_zero_word, BitVec.xor_self]

/-- The seed `KC[i]` cancels the constant of lane `i`, and the empty stream puts nothing in its place. -/
theorem hashLanes_kc_nil (P : Params) (i : Fin 4) : (hashLanes P (P.kc i) [])[i] = 0#64 := by
  have hseed : (laneInit P (P.kc i))[i] = 0#64 :=
    (laneInit_getElem P (P.kc i) i.val i.isLt).trans BitVec.xor_self
  have htail : streamTail P [] (streamLanes P (P.kc i) []) = laneInit P (P.kc i) := by
    rw [streamLanes_nil]
    rfl
  have hlen : rotr (BitVec.ofNat 64 ([] : List Byte).length) (lenRot i) = 0#64 := rotr_zero_word _
  rw [hashLanes_lane, htail, hseed, hlen, BitVec.xor_self]
  exact Function.iterate_fixed (avLane_zero P i) avRounds

/-- Settles O47: the finalized lanes agree on lane `i`, and are 0 there for the seed `KC[i]` and the empty stream. -/
theorem digestLaneIndependence : Obligations.DigestLaneIndependence := by
  refine ⟨fun P Q i hzero hkc hwrot seed bytes j => ?_, fun P i j => ?_⟩
  · rw [hashDigest_lane, hashDigest_lane, hashLanes_sameLane ⟨hzero, hkc, hwrot⟩]
  · rw [hashDigest_lane, hashLanes_kc_nil]
    exact BitVec.extractLsb'_zero

end Sys2Proof.Machine
end

section
/-! The padded word (41_finalizer.md rules R141, R142 and R150): a sum of placed bytes, with zero bytes above the valid
ones. -/

namespace Sys2Proof.Machine

/-- An `|||` of words that share no bit is their sum. -/
theorem foldl_or_eq_add_sum {α : Type} {w : Nat} (f : α → BitVec w) {l : List α} {acc : BitVec w}
    (hacc : ∀ a ∈ l, acc &&& f a = 0#w) (hl : l.Pairwise fun a b => f a &&& f b = 0#w) :
    l.foldl (fun acc a => acc ||| f a) acc = acc + (l.map f).sum := by
  induction l generalizing acc with
  | nil => simp
  | cons a l ih =>
    obtain ⟨ha, hrest⟩ := List.forall_mem_cons.mp hacc
    obtain ⟨hal, hl⟩ := List.pairwise_cons.mp hl
    have hacc' : ∀ b ∈ l, (acc ||| f a) &&& f b = 0#w := fun b hb => by
      rw [BitVec.and_comm, BitVec.and_or_distrib_left, BitVec.and_comm, hrest b hb, BitVec.and_comm, hal b hb,
        BitVec.or_self]
    rw [List.foldl_cons, ih hacc' hl, ← BitVec.add_eq_or_of_and_eq_zero _ _ ha, List.map_cons, List.sum_cons,
      add_assoc]

/-- Bytes at different places share no bit. -/
theorem placedBytes_disjoint (x y : Byte) {j k : Nat} (hjk : j ≠ k) (w : Nat) :
    (x.setWidth w <<< (8 * j)) &&& (y.setWidth w <<< (8 * k)) = 0#w := by
  apply BitVec.eq_of_getLsbD_eq
  intro i hi
  rw [BitVec.getLsbD_and, placedByte_getLsbD x j hi, placedByte_getLsbD y k hi, BitVec.getLsbD_zero]
  by_cases hj : i / 8 = j
  · simp [hj, hjk]
  · simp [hj]

/-- The packing of bytes is the sum of the bytes at their places. -/
theorem packBytes_eq_sum (w : Nat) {n : Nat} (b : Vector Byte n) :
    packBytes w b = ∑ k : Fin n, (b[k].setWidth w : BitVec w) <<< (8 * k.val) := by
  have hdisjoint : (List.finRange n).Pairwise fun j k =>
      (b[j].setWidth w : BitVec w) <<< (8 * j.val) &&& (b[k].setWidth w : BitVec w) <<< (8 * k.val) = 0#w :=
    (List.nodup_finRange n).imp fun hjk => placedBytes_disjoint _ _ (Fin.val_ne_of_ne hjk) w
  rw [packBytes, foldl_or_eq_add_sum (fun k : Fin n => (b[k].setWidth w : BitVec w) <<< (8 * k.val))
    (fun _ _ => BitVec.zero_and) hdisjoint, Fin.sum_univ_def]
  exact zero_add _

theorem pad_eq_sum (buf : Vector Byte 8) (n : Nat) :
    pad buf n = ∑ j : Fin 8, (if j.val < n then (buf[j].setWidth 64 : Word) <<< (8 * j.val) else 0) := by
  rw [pad, leWord_eq_packBytes, packBytes_eq_sum]
  refine Finset.sum_congr rfl fun j _ => ?_
  rw [Fin.getElem_fin, Vector.getElem_ofFn]
  split
  · rfl
  · simp

/-- The valid bytes followed by zero bytes. -/
theorem pad_eq_leWord_take (buf : Vector Byte 8) (n : Nat) :
    pad buf n = leWord (Vector.ofFn fun j => (buf.toList.take n).getD j.val 0) := by
  rw [pad]
  congr 2
  funext j
  split
  case isTrue hj => simp [List.getD_eq_getElem?_getD, List.getElem?_take_of_lt hj]
  case isFalse hj => rw [List.getD_eq_default _ _ (by simp; omega)]

/-- Settles O9: the bytes are placed apart, and no byte from the `n`-th on is read. -/
theorem padSumsTheValidBytes : Obligations.PadSumsTheValidBytes :=
  fun buf n _ _ => ⟨pad_eq_sum buf n, pad_eq_leWord_take buf n, fun _ h => pad_congr h⟩

/-! ### A zero byte at the end of the stream -/

/-- A span reads 0 past the end of the stream, so a zero byte there is not seen. -/
theorem spanAt_append_zero (s : List Byte) (start : Nat) : spanAt (s ++ [0]) start = spanAt s start := by
  apply Vector.ext
  intro j hj
  rw [spanAt_getElem _ _ hj, spanAt_getElem _ _ hj]
  by_cases hin : start + j < s.length
  · rw [List.getD_append _ _ _ _ hin]
  · rw [List.getD_append_right _ _ _ _ (by omega), List.getD_eq_default s _ (by omega)]
    cases start + j - s.length <;> rfl

/-- The padded partial word is the word of the stream that starts at its first byte. -/
theorem pad_eq_streamWord (s : List Byte) :
    pad (spanAt s (8 * (s.length / 8))) (s.length % 8) = streamWord s (s.length / 8) := by
  rw [pad, streamWord]
  congr 1
  apply Vector.ext
  intro j hj
  rw [Vector.getElem_ofFn]
  split
  case isTrue _ => rfl
  case isFalse hpast =>
    have hpast : s.length % 8 ≤ j := Nat.not_lt.mp hpast
    rw [spanAt_getElem _ _ hj, List.getD_eq_default s _ (by omega)]

theorem streamTail_of_partial (P : Params) {s : List Byte} (h : s.length % 8 ≠ 0) (lane : Vector Word 4) :
    streamTail P s lane = laneUpdate P (streamWord s (s.length / 8)) lane := by
  rw [streamTail, if_neg h, pad_eq_streamWord]

theorem streamWord_append_zero (s : List Byte) (k : Nat) : streamWord (s ++ [0]) k = streamWord s k := by
  rw [streamWord, spanAt_append_zero, streamWord]

/-- Settles O48: the zero byte leaves the last word as it was, whether the word stays partial and is padded or the zero
byte completes it. -/
theorem paddingAmbiguityIsKept : Obligations.PaddingAmbiguityIsKept := by
  intro P seed bytes hpart
  have hlen : (bytes ++ [0]).length = bytes.length + 1 := List.length_append
  rw [streamTail_of_partial P hpart]
  by_cases h7 : bytes.length % 8 = 7
  · have hwhole : (bytes ++ [0]).length % 8 = 0 := by omega
    rw [streamTail, if_pos hwhole, streamLanes_append_complete P seed bytes 0 h7, streamWord_append_zero]
  · have hpart' : (bytes ++ [0]).length % 8 ≠ 0 := by omega
    have hword : (bytes ++ [0]).length / 8 = bytes.length / 8 := by omega
    rw [streamTail_of_partial P hpart', hword, streamWord_append_zero,
      streamLanes_append_partial P seed bytes 0 (by omega)]

end Sys2Proof.Machine
end

section
/-! What every command does about errors (60_exceptions.md rules R172 to R175), and the instances of a platform (rule
R183). -/

namespace Sys2Proof.Machine

/-- Rule R173: only a block without an error takes the effect of a command. -/
theorem runCommand_of_err {s : State} (h : s.err = true) (c : Command) : runCommand c s = .next s := by
  have heffect := commandEffect_transition c s
  rw [runCommand_eq_transition]
  generalize commandTransition c s = t at heffect ⊢
  cases heffect with
  | unchanged _ => rfl
  | raised _ herr | started _ herr | absorbed _ _ herr _ | finalized _ herr _ =>
    rw [h] at herr
    cases herr

theorem runCommands_of_err {s : State} (h : s.err = true) (cs : List Command) : runCommands cs s = .next s := by
  induction cs with
  | nil => rfl
  | cons c cs ih => rw [runCommands_cons_next (runCommand_of_err h c), ih]

/-- Settles O23: by induction over the commands, each of which is discarded; reset writes both error fields. -/
theorem errorIsStickyUntilReset : Obligations.ErrorIsStickyUntilReset :=
  ⟨fun cs _ herr => runCommands_of_err herr cs, fun _ _ hp => ⟨_, step_of_reset hp, rfl, rfl⟩⟩

/-- The error that a command with a given verdict raises in a block without an error: the decoder's (rules R84, R85), or
`NO_CONTEXT` for the two commands that need a context (rule R174). -/
def verdictError (active : Bool) : Verdict → Option ErrCode
  | .nop | .init => none
  | .absorb _ | .finalize => if active then none else some .noContext
  | .illegal code => some code

/-- The priority of rule R175 is the order of the decoder's checks, with the context check after them. -/
theorem errorOf_eq_verdictError (active : Bool) (cmd : BitVec 8) :
    errorOf active cmd = (verdictError active (verdict cmd)).map errCodeBits := by
  have hcase := verdictCase cmd
  generalize verdict cmd = v at hcase ⊢
  cases hcase with
  | nop opc nb | init opc nb => simp [errorOf, illegalByteCount, verdictError, opc, nb]
  | absorb opc nb =>
    cases active <;> simp [errorOf, illegalByteCount, verdictError, errCodeBits, opc, Nat.not_lt.mpr nb]
  | finalize opc nb => cases active <;> simp [errorOf, illegalByteCount, verdictError, errCodeBits, opc, nb]
  | reserved opc => simp [errorOf, verdictError, errCodeBits, opc]
  | illegalCount nb =>
    have hopc : ¬ 4 ≤ cmd.toNat / 16 := by
      rw [illegalByteCount, decide_eq_true_eq] at nb
      omega
    simp [errorOf, verdictError, errCodeBits, hopc, nb]

theorem absorbCommand_of_inactive {s : State} (herr : s.err = false) (hidle : s.active = false) (P : Params)
    {nb : BitVec 4} (hnb : nb.toNat ≤ 8) (data : Word) :
    absorbCommand P nb data s = s.setErr true (errCodeBits .noContext) := by
  rw [absorbCommand, unlessErr_of_noErr herr, if_pos hnb, withContext_of_inactive hidle, raiseErr_of_noErr herr]

theorem finalizeCommand_of_inactive {s : State} (herr : s.err = false) (hidle : s.active = false) (P : Params) :
    finalizeCommand P s = s.setErr true (errCodeBits .noContext) := by
  rw [finalizeCommand, unlessErr_of_noErr herr, withContext_of_inactive hidle, raiseErr_of_noErr herr]

/-- A FINALIZE accepted without error consumes the context (rule R147). -/
theorem commandTransition_of_finalize {c : Command} {s : State} (hv : verdict c.cmd = .finalize)
    (herr : s.err = false) (hact : s.active = true) : commandTransition c s = finishContext s := by
  simp only [commandTransition, hv]
  rw [finalizeCommand, unlessErr_of_noErr herr, withContext_of_active hact, finishContext]

/-- The precise error of rule R172: nothing but `ERR` and `ERR_CODE` changes. -/
theorem commandTransition_of_error {c : Command} {s : State} (herr : s.err = false) {code : ErrCode}
    (h : verdictError s.active (verdict c.cmd) = some code) :
    commandTransition c s = s.setErr true (errCodeBits code) := by
  unfold commandTransition
  cases hv : verdict c.cmd with
  | nop | init => simp [verdictError, hv] at h
  | absorb nb =>
    obtain ⟨hidle, rfl⟩ : s.active = false ∧ .noContext = code := by simpa [verdictError, hv] using h
    exact absorbCommand_of_inactive herr hidle _ (verdict_absorb_le hv) _
  | finalize =>
    obtain ⟨hidle, rfl⟩ : s.active = false ∧ .noContext = code := by simpa [verdictError, hv] using h
    exact finalizeCommand_of_inactive herr hidle _
  | illegal _ =>
    obtain rfl : _ = code := by simpa [verdictError, hv] using h
    exact raiseErr_of_noErr herr _

/-- A command for which no cause of an error applies writes neither error field. -/
theorem commandTransition_of_noError {c : Command} {s : State} (herr : s.err = false)
    (h : verdictError s.active (verdict c.cmd) = none) :
    (commandTransition c s).err = s.err ∧ (commandTransition c s).errCode = s.errCode := by
  cases hv : verdict c.cmd with
  | nop =>
    rw [commandTransition_of_nop hv]
    exact ⟨rfl, rfl⟩
  | init =>
    rw [commandTransition_of_init hv herr]
    exact ⟨rfl, rfl⟩
  | absorb nb =>
    have hact : s.active = true := by simpa [verdictError, hv] using h
    rw [commandTransition_of_absorb hv herr hact]
    exact ⟨rfl, rfl⟩
  | finalize =>
    have hact : s.active = true := by simpa [verdictError, hv] using h
    rw [commandTransition_of_finalize hv herr hact]
    exact ⟨rfl, rfl⟩
  | illegal code => simp [verdictError, hv] at h

/-- Settles O22: a standing error discards the command, and else the spec's order of causes is the verdict's. -/
theorem errorPriority : Obligations.ErrorPriority := by
  intro c s
  refine ⟨fun herr => runCommand_of_err herr c, fun herr code hcode => ?_, fun herr hnone => ?_⟩
  · rw [errorOf_eq_verdictError, Option.map_eq_some_iff] at hcode
    obtain ⟨cause, hcause, rfl⟩ := hcode
    rw [runCommand_eq_transition, commandTransition_of_error herr hcause]
    rfl
  · rw [errorOf_eq_verdictError, Option.map_eq_none_iff] at hnone
    obtain ⟨herr', hcode'⟩ := commandTransition_of_noError herr hnone
    exact ⟨_, runCommand_eq_transition c s, herr'.trans herr, hcode'⟩

/-- Settles O53: the command completes in its own record, and a platform writes no other. -/
theorem instancesAreIndependent : Obligations.InstancesAreIndependent := by
  intro n k c p
  have hrun := runCommand_eq_transition c p[k]
  refine ⟨_, platformCommand_next hrun, ?_, fun j hj => ?_⟩
  · exact hrun.trans (congrArg _ (Vector.getElem_set_self k.isLt).symm)
  · exact Vector.getElem_set_ne _ _ fun e => hj (Fin.ext e.symm)

end Sys2Proof.Machine
end

section
/-! The step by the head of the host's inputs (70_reset_and_hazards.md rules R190, R194 and R196): a transfer runs its
instruction, a reset gives the values of 10_state.md rule R47, anything else waits, and no case stops. -/

namespace Sys2Proof.Machine

/-! ### The block after a reset -/

@[simp] theorem resetBlock_active (s : State) : (resetBlock s).active = false := rfl
@[simp] theorem resetBlock_digestValid (s : State) : (resetBlock s).digestValid = false := rfl
@[simp] theorem resetBlock_err (s : State) : (resetBlock s).err = false := rfl
@[simp] theorem resetBlock_errCode (s : State) : (resetBlock s).errCode = 0 := rfl
@[simp] theorem resetBlock_busy (s : State) : (resetBlock s).busy = false := rfl
@[simp] theorem resetBlock_bufCnt (s : State) : (resetBlock s).ctx.bufCnt = 0 := rfl
@[simp] theorem resetBlock_totalLen (s : State) : (resetBlock s).ctx.totalLen = 0 := rfl
@[simp] theorem cmdReady_resetBlock (s : State) : cmdReady (resetBlock s) = true := rfl

/-- `STATUS` does not show the one field that differs from the reset record, the host's later inputs. -/
@[simp] theorem statusWord_resetBlock (s : State) : statusWord (resetBlock s) = 0 :=
  show statusWord State.reset = 0 by decide

/-! ### The cases of a step -/

/-- Settles O29: a transferred command is its transition, and so is each case of a step by the head of the inputs. -/
theorem stepAlwaysCompletes : Obligations.StepAlwaysCompletes := by
  refine ⟨fun c s => ⟨_, runCommand_eq_transition c s⟩, fun s => ?_⟩
  cases hp : s.pending with
  | nil => exact ⟨_, step_of_noInput hp⟩
  | cons input rest =>
    cases input with
    | reset => exact ⟨_, step_of_reset hp⟩
    | command c =>
      cases hbusy : s.busy with
      | true => exact ⟨_, step_of_waiting hp hbusy⟩
      | false => exact ⟨_, (step_of_transfer hp hbusy).trans (runCommand_eq_transition c _)⟩

/-- Settles O26: the step transfers the command, which runs what it decodes to. -/
theorem stepRunsDecodedInstruction : Obligations.StepRunsDecodedInstruction :=
  fun _ _ _ _ hp hbusy hdec =>
    ⟨wellFormed_of_decode hdec, (step_of_transfer hp hbusy).trans (runCommand_of_decode hdec _)⟩

/-- Settles O27: the two cases of a step in which no input takes effect. -/
theorem stepWaitsWhenNotReady : Obligations.StepWaitsWhenNotReady :=
  fun _ => ⟨step_of_noInput, fun _ _ => step_of_waiting⟩

/-- Settles O28: the step is the reset of the block, whatever its state. -/
theorem stepAppliesReset : Obligations.StepAppliesReset := by
  intro s rest hp
  refine ⟨_, step_of_reset hp, ?_⟩
  simp

end Sys2Proof.Machine
end

section
/-! A command at the pins (70_reset_and_hazards.md rules R190, R194, R197, R198): it is held off while another is in
progress, runs for the latency of its kind, and then makes the transition of the transaction-level machine. -/

namespace Sys2Proof.Machine

/-! ### The handshake -/

theorem presented_of_valid {p : Pins} (h : p.cmdValid = true) : presented p = some p.command := if_pos h

theorem presented_eq_some_iff {p : Pins} {c : Command} : presented p = some c ↔ p.cmdValid = true ∧ p.command = c := by
  simp [presented]

theorem keepsHandshake_some_iff {c : Command} {p : Pins} :
    keepsHandshake (some c) p = true ↔ p.cmdValid = true ∧ p.command = c := by
  simp [keepsHandshake, presented_eq_some_iff]

/-- A host that leaves the pins as they were keeps its duty, whether or not a command was held off. -/
theorem keepsHandshake_presented (q : Pins) : keepsHandshake (presented q) q = true := by
  cases h : presented q with
  | none => rfl
  | some c => exact keepsHandshake_some_iff.mpr (presented_eq_some_iff.mp h)

theorem tick_of_brokenHandshake (T : Latencies) {p : Pins} {k : ClockState} (hr : p.rstN = true)
    (hk : keepsHandshake k.heldOff p = false) : tick T p k = .refused .handshakeBroken := by
  simp [tick, hr, hk]

/-! ### From the transfer edge to the completion edge -/

/-- The completion edge is the transition of the command (rule R196), from the record with `BUSY = 0`. -/
theorem complete_eq_transition (c : Command) (b : State) (held : Option Command) :
    complete c b held = .next ⟨commandTransition c (b.setBusy false), none, held⟩ :=
  complete_next (runCommand_eq_transition c _)

section
variable {T : Latencies} {p q : Pins} {b : State} {c : Command} {held : Option Command}

/-- The transfer edge of a command of latency 1 is its completion edge too. -/
theorem tickIdle_completes (hv : p.cmdValid = true) (hlat : latencyOf T p.command ≤ 1) :
    tickIdle T p b = .next ⟨commandTransition p.command (b.setBusy false), none, none⟩ := by
  simp [tickIdle, presented_of_valid hv, hlat, complete_eq_transition]

/-- The transfer edge of a longer command raises `BUSY`. -/
theorem tickIdle_starts (hv : p.cmdValid = true) (hlat : 1 < latencyOf T p.command) :
    tickIdle T p b = .next ⟨b.setBusy true, some ⟨p.command, latencyOf T p.command - 1⟩, none⟩ := by
  simp [tickIdle, presented_of_valid hv, Nat.not_le.mpr hlat]

/-- One edge of waiting, with more than one edge to go. -/
theorem tick_waits (hr : q.rstN = true) (hk : keepsHandshake held q = true) (n : Nat) :
    tick T q ⟨b, some ⟨c, n + 2⟩, held⟩ = .next ⟨b, some ⟨c, n + 1⟩, presented q⟩ :=
  (tick_of_busy T hr hk rfl).trans (tickBusy_waits (by simp) q b)

/-- The completion edge, the one that remained. -/
theorem tick_completes (hr : q.rstN = true) (hk : keepsHandshake held q = true) :
    tick T q ⟨b, some ⟨c, 1⟩, held⟩ = .next ⟨commandTransition c (b.setBusy false), none, presented q⟩ := by
  rw [tick_of_busy T hr hk rfl, tickBusy_completes (Nat.le_refl 1), complete_eq_transition]

/-- Before the completion edge the record stays as it is. -/
theorem ticks_wait (hr : q.rstN = true) {n r : Nat} (hn : n < r) (hk : keepsHandshake held q = true) :
    ∃ k', ticks T (List.replicate n q) ⟨b, some ⟨c, r⟩, held⟩ = .next k' ∧ k'.block = b := by
  induction n generalizing r held with
  | zero => exact ⟨_, rfl, rfl⟩
  | succ n ih =>
    obtain ⟨m, rfl⟩ : ∃ m, r = m + 2 := ⟨r - 2, by omega⟩
    rw [List.replicate_succ, ticks_cons_next (tick_waits hr hk m)]
    exact ih (by omega) (keepsHandshake_presented q)

/-- The last of the remaining edges is the completion edge. -/
theorem ticks_complete (hr : q.rstN = true) (n : Nat) (hk : keepsHandshake held q = true) :
    ticks T (List.replicate (n + 1) q) ⟨b, some ⟨c, n + 1⟩, held⟩ =
      .next ⟨commandTransition c (b.setBusy false), none, presented q⟩ := by
  induction n generalizing held with
  | zero =>
    rw [List.replicate_succ, ticks_cons_next (tick_completes hr hk)]
    rfl
  | succ n ih =>
    rw [List.replicate_succ, ticks_cons_next (tick_waits hr hk n)]
    exact ih (keepsHandshake_presented q)

/-- The edges of a whole command from an idle block: its latency many, the transfer edge the first of them. -/
theorem ticks_command {k : ClockState} (hf : k.inFlight = none) (hk : keepsHandshake k.heldOff p = true)
    (hp : p.rstN = true) (hv : p.cmdValid = true) (hq : q.rstN = true) :
    ∃ held, ticks T (p :: List.replicate (latencyOf T p.command - 1) q) k =
      .next ⟨commandTransition p.command (k.block.setBusy false), none, held⟩ := by
  have hidle := tick_of_idle T hp hk hf
  by_cases hlat : latencyOf T p.command ≤ 1
  · rw [ticks_cons_next (hidle.trans (tickIdle_completes hv hlat)), Nat.sub_eq_zero_of_le hlat]
    exact ⟨none, rfl⟩
  · have hmore := Nat.not_le.mp hlat
    rw [ticks_cons_next (hidle.trans (tickIdle_starts hv hmore))]
    obtain ⟨n, hn⟩ : ∃ n, latencyOf T p.command - 1 = n + 1 := ⟨latencyOf T p.command - 2, by omega⟩
    rw [hn]
    exact ⟨presented q, ticks_complete hq n rfl⟩

end

/-- Settles O50: an idle block has `BUSY = 0`, so the completion edge makes the transition of the record itself; the edges
before it leave the record that the transfer edge made. -/
theorem commandCompletesAtItsLatency : Obligations.CommandCompletesAtItsLatency := by
  intro T k p q hinv hf hk hp hv hq
  have hbusy : k.block.busy = false := by rw [hinv.busy_iff, hf]; rfl
  have hready : k.block.setBusy false = k.block := hbusy ▸ State.setBusy_self k.block
  constructor
  · intro n hn
    rw [ticks_cons_next ((tick_of_idle T hp hk hf).trans (tickIdle_starts hv (by omega)))]
    exact ticks_wait hq (by omega) rfl
  · obtain ⟨held, hrun⟩ := ticks_command (T := T) hf hk hp hv hq
    rw [hready] at hrun
    have htrans := runCommand_eq_transition p.command k.block
    exact ⟨_, hrun, htrans, rfl, by rw [cmdReady, runCommand_busy htrans, hbusy]; rfl⟩

/-- Settles O51: the reset edge comes before the handshake and before any command in progress. -/
theorem resetEdgeAbandonsCommand : Obligations.ResetEdgeAbandonsCommand := by
  intro T p k hr
  refine ⟨_, tick_of_reset T hr k, ?_⟩
  simp

/-- Settles O52: the duty towards a held-off command is to present it, and the host presents nothing or another. -/
theorem brokenHandshakeIsRefused : Obligations.BrokenHandshakeIsRefused := by
  intro T p k c hr hheld hbroken
  apply tick_of_brokenHandshake T hr
  rw [hheld, Bool.eq_false_iff, ne_eq, keepsHandshake_some_iff]
  rintro ⟨hvalid, hsame⟩
  obtain hdropped | hchanged := hbroken
  · simp [hdropped] at hvalid
  · exact hchanged hsame

end Sys2Proof.Machine
end

section
/-! The instruction of an encoded transfer (30_encoding.md rules R80 to R86): each row of the opcode table decodes to
itself, and an ABSORB whose byte count has no encoding raises the error of an illegal one (rule R85). -/

namespace Sys2Proof.Machine

/-! ### The reserved rows -/

theorem toNat_append_eq_add {m w : Nat} (high : BitVec m) (low : BitVec w) :
    (high ++ low).toNat = high.toNat * 2 ^ w + low.toNat := by
  rw [BitVec.toNat_append, ← Nat.shiftLeft_add_eq_or_of_lt low.isLt, Nat.shiftLeft_eq]

/-- A reserved command below 0x80 is of the row `01xxxxxx`. -/
theorem decode_of_reserved40 {c : Command} (hopc : 4 ≤ c.cmd.toNat / 16) (htop : c.cmd.toNat < 128) :
    decode c = .ok (.reserved40 (c.cmd.extractLsb' 0 6)) := by
  have hbit : c.cmd.getLsbD 7 = false := by
    rw [cmd_getLsbD_seven]
    exact decide_eq_false (Nat.not_le.mpr htop)
  simp only [decode, verdict_of_reserved hopc, hbit, Bool.false_eq_true, if_false]

/-- A command from 0x80 on is of the row `1xxxxxxx`. -/
theorem decode_of_reserved80 {c : Command} (htop : 128 ≤ c.cmd.toNat) :
    decode c = .ok (.reserved80 (c.cmd.extractLsb' 0 7)) := by
  have hbit : c.cmd.getLsbD 7 = true := by
    rw [cmd_getLsbD_seven]
    exact decide_eq_true htop
  have hopc : 4 ≤ c.cmd.toNat / 16 := by omega
  simp only [decode, verdict_of_reserved hopc, hbit, if_true]

theorem decode_encode_reserved40 (low : BitVec 6) : decode (encode (.reserved40 low)) = .ok (.reserved40 low) := by
  have hcmd : (encode (.reserved40 low)).cmd.toNat = 64 + low.toNat := toNat_append_eq_add 0b01#2 low
  rw [decode_of_reserved40 (by omega) (by omega), encode, BitVec.extractLsb'_append_eq_right]

theorem decode_encode_reserved80 (low : BitVec 7) : decode (encode (.reserved80 low)) = .ok (.reserved80 low) := by
  have hcmd : (encode (.reserved80 low)).cmd.toNat = 128 + low.toNat := toNat_append_eq_add 0b1#1 low
  rw [decode_of_reserved80 (by omega), encode, BitVec.extractLsb'_append_eq_right]

/-! ### INIT -/

theorem decode_of_init {c : Command} (hv : verdict c.cmd = .init) : decode c = .ok (.init c.data) := by
  rw [decode, hv]

theorem decode_encode_init (seed : Word) : decode (encode (.init seed)) = .ok (.init seed) :=
  decode_of_init (c := encode (.init seed)) verdict_init

/-! ### ABSORB, with a legal byte count and without -/

theorem decode_encode_absorb {nb : BitVec 4} (hnb : nb.toNat ≤ 8) (data : Word) :
    decode (encode (.absorb nb data)) = .ok (.absorb nb data) := by
  rw [decode, verdict_of_isAbsorb (isAbsorb_encode hnb data), nbField_encode_absorb]
  rfl

/-- Settles O1: row by row; only the byte count of an ABSORB has to be legal. -/
theorem decodeEncodeAgree : Obligations.DecodeEncodeAgree := by
  intro i hwf
  cases i with
  | nop | finalize => rfl
  | init seed => exact decode_encode_init seed
  | absorb nb data => exact decode_encode_absorb (of_decide_eq_true hwf) data
  | reserved40 low => exact decode_encode_reserved40 low
  | reserved80 low => exact decode_encode_reserved80 low

theorem absorbCommand_of_illegalCount {s : State} (herr : s.err = false) (P : Params) {nb : BitVec 4}
    (hnb : 8 < nb.toNat) (data : Word) : absorbCommand P nb data s = s.setErr true (errCodeBits .illegalNb) := by
  rw [absorbCommand, unlessErr_of_noErr herr, if_neg (Nat.not_le.mpr hnb), raiseErr_of_noErr herr]

/-- Settles O19: the byte count is checked before the context. -/
theorem illFormedAbsorbRaises : Obligations.IllFormedAbsorbRaises := by
  intro nb data s hnb herr
  rw [exec_absorb, absorbCommand_of_illegalCount herr _ hnb]
  rfl

/-- Settles O25: the step transfers the command, whose verdict is `ILLEGAL_NB`. -/
theorem stepRaisesIllegalByteCount : Obligations.StepRaisesIllegalByteCount :=
  fun s _ rest hp hbusy herr hnb =>
    (step_of_transfer hp hbusy).trans
      (runCommand_of_illegal (s := s.setPending rest) (verdict_of_illegalByteCount hnb) herr)

end Sys2Proof.Machine
end
